-- ==== Sys2Proof/Word.lean ====
section
/-! DEFINITION. The plain types of the CVERE core: words, bytes and register indices
(spec/00_scope.md section 8, spec/10_state.md R10). The widths stand in these three types
as numerals, so that decision procedures see them; the rules name `Config.xlen` and `Config.nreg`, and the laws
`word_eq_xlen` and `reg_eq_nreg` hold the two together. -/

namespace Sys2Proof

/-- A word: 16 bits, the width of every register and of every instruction (R2 `XLEN`, R60). -/
abbrev Word := BitVec 16

/-- A byte: the unit of memory (R40). -/
abbrev Byte := BitVec 8

/-- The index of a general register, 0 to 15 (R2 `NREG`, R10). An index is never added to or masked,
so it is a `Fin`, not a bit vector. -/
abbrev Reg := Fin 16

end Sys2Proof
end

