-- ==== Sys2Proof/Config.lean ====
section
/-! DEFINITION. The parameters of spec/00_scope.md R2, each under its own name. The source fixes the constants
marked "boot default" and the encodings; the others are open parameters or decisions of spec/92_eei_decisions.md,
each with a row in the assumption log. No rule of the model writes one of these numbers out (decision D26, log entry 32).
The masks and nibbles of the encodings stand in Decode.lean, where the encoding tables are. -/

namespace Sys2Proof

namespace Config

/-- `XLEN`: the width of a word and of every register (R2, R10). `Word` is `BitVec xlen` (Laws/State.lean, `word_eq_xlen`). -/
abbrev xlen : Nat := 16

/-- `NREG`: the number of general registers, register 0 among them (R2, R10). `Reg` is `Fin nreg` (`reg_eq_nreg`). -/
abbrev nreg : Nat := 16

/-- `ILEN`: the length of every instruction, in bits (R2, R60). -/
abbrev ilen : Nat := 16

end Config

/-- The privilege rings, Kernel strictly most privileged (R24, R169). The spec gives them no numeric encoding
(decision D18, log entry 16). -/
inductive Ring where
  | kernel | supervisor | user
  deriving DecidableEq, Repr

/-- The four condition flags as booleans, the decoded side of the flag unit (R20, R22). -/
structure Flags where
  zero     : Bool
  negative : Bool
  carry    : Bool
  overflow : Bool
  deriving DecidableEq, Repr

/-- The positions of the four flags in `sr`: `Z_BIT`, `N_BIT`, `C_BIT`, `V_BIT` (R2, R20). -/
structure FlagLayout where
  zBit : Fin Config.xlen
  nBit : Fin Config.xlen
  cBit : Fin Config.xlen
  vBit : Fin Config.xlen
  deriving DecidableEq, Repr

/-- R20: the four positions are four distinct values. -/
abbrev FlagLayout.Distinct (L : FlagLayout) : Prop :=
  L.zBit ≠ L.nBit ∧ L.zBit ≠ L.cBit ∧ L.zBit ≠ L.vBit ∧
  L.nBit ≠ L.cBit ∧ L.nBit ≠ L.vBit ∧ L.cBit ≠ L.vBit

namespace Config

/-- `MEM_SIZE`: memory holds the addresses 0x0000 to 0xFFFF (R40). -/
def memSize : Nat := 65536

/-- `ILEN` in bytes: what a fetch adds to `pc` (R60, R93). -/
def instrBytes : Word := BitVec.ofNat xlen (ilen / 8)

/-- `EXC_HANDLER`: the one exception-handler address (R26), a constant and no register. -/
def excHandler : Word := 0x0010

/-- `HALT_WORD`: the encoding of HALT, which an out-of-bounds fetch also gives (R44, R63). -/
def haltWord : Word := 0xFFFF

/-- `NOP_WORD`: the canonical NOP (R65). -/
def nopWord : Word := 0x0000

/-- `PC_RESET`. DESIGN CHOICE (spec decision D4, log entry 2). -/
def pcReset : Word := 0x0000

/-- `KSP_RESET`, a boot default (R32). -/
def kspReset : Word := 0xFFFE

/-- `SSP_RESET`, a boot default (R32). -/
def sspReset : Word := 0xEFFE

/-- `USP_RESET`, a boot default (R32). -/
def uspReset : Word := 0xDFFE

/-- `RING_RESET`, a boot default (R32). -/
def ringReset : Ring := .kernel

/-- What `x[1]` to `x[15]`, `lr`, `sr`, `saved_pc` and `saved_sr` hold at reset.
DESIGN CHOICE (spec decision D4, log entry 2). -/
def wordReset : Word := 0x0000

/-- The positions of the flags in `sr`. DESIGN CHOICE: the spec leaves them open and gives 0, 1, 2, 3 as the
default (decision D2, log entry 3). The model reads them only through this name. -/
def flagLayout : FlagLayout := { zBit := 0, nBit := 1, cBit := 2, vBit := 3 }

/-- What a byte that `State.mem` does not list reads as. DESIGN CHOICE (decision D5, log entry 1). -/
def unlistedByte : Byte := 0x00

/-- `MEM_INIT`, the contents of memory at creation and after reset, as a list of the bytes that differ from
`unlistedByte`. The spec recommends all 0x00, so nothing is listed. DESIGN CHOICE (decision D5, log entry 1). -/
def memInit : List (Nat × Byte) := []

end Config

end Sys2Proof
end

