-- ==== Sys2Proof/Syntax.lean ====
section
/-! DEFINITION. The instructions: one constructor for each row of spec/opcode_table.json (spec/30_encoding.md R62,
R64), with the fields the row names, the ignored ones included (R61, R69; log entry 26), so that a word and its
instruction hold the same information. The operands follow the order of R72. -/

namespace Sys2Proof

/-- An instruction of the CVERE core. `rd`, `rs`, `rt` are register indices; an immediate, an offset or an address
is the raw field of the word, extended or scaled by the meaning and not here (R61, R68). -/
inductive Instr where
  /-- HALT (R151). -/
  | halt
  /-- CALL, a no-op (R152); its argument is the ignored low four bits. -/
  | call (ignored : BitVec 4)
  /-- RET, a no-op (R153). -/
  | ret (ignored : BitVec 4)
  /-- PUSH, a no-op (R154). -/
  | push (ignored : BitVec 4)
  /-- POP, a no-op (R155). -/
  | pop (ignored : BitVec 4)
  /-- BNE rd,imm8 (R142). -/
  | bne (rd : Reg) (imm8 : BitVec 8)
  /-- NOP (R150); its argument is the ignored low twelve bits (R65). -/
  | nop (ignored : BitVec 12)
  /-- ADD rd,rs,rt (R110). -/
  | add (rd rs rt : Reg)
  /-- ADDI rd,imm8 (R111). -/
  | addi (rd : Reg) (imm8 : BitVec 8)
  /-- SUB rd,rs,rt (R112). -/
  | sub (rd rs rt : Reg)
  /-- AND rd,rs,rt (R120). -/
  | and (rd rs rt : Reg)
  /-- OR rd,rs,rt (R121). -/
  | or (rd rs rt : Reg)
  /-- XOR rd,rs,rt (R122). -/
  | xor (rd rs rt : Reg)
  /-- NOT rd,rs (R123); its last argument is the ignored low four bits. -/
  | not (rd rs : Reg) (ignored : BitVec 4)
  /-- SHL rd,rs,rt (R124). -/
  | shl (rd rs rt : Reg)
  /-- SHR rd,rs,rt (R125). -/
  | shr (rd rs rt : Reg)
  /-- LOAD rd,rs,offset (R131). -/
  | load (rd rs : Reg) (offset : BitVec 4)
  /-- STORE rd,rs,offset (R132); `rd` is the register whose value is stored. -/
  | store (rd rs : Reg) (offset : BitVec 4)
  /-- LOADI rd,imm8 (R133). -/
  | loadi (rd : Reg) (imm8 : BitVec 8)
  /-- JMP addr12 (R140). -/
  | jmp (addr12 : BitVec 12)
  /-- BEQ rd,imm8 (R141). -/
  | beq (rd : Reg) (imm8 : BitVec 8)
  deriving DecidableEq, Repr

end Sys2Proof
end

