-- ==== Sys2Proof/WellFormed.lean ====
section
/-! DEFINITION. Which instructions have a word (spec/30_encoding.md R70). The widths of all fields are in their
types, so one check is left: the words of BNE that HALT and the Extended family take first. -/

namespace Sys2Proof

/-- R70: BNE on register 15 is encodable only with `imm8` from 0x40 to 0xFE; BNE on a lower register with every
`imm8`. -/
def bneEncodable (rd : Reg) (imm8 : BitVec 8) : Bool :=
  rd != 15 || (0x40#8 ≤ imm8 && imm8 ≤ 0xFE#8)

/-- The instruction has an encoding. -/
def Instr.WellFormed : Instr → Bool
  | .bne rd imm8 => bneEncodable rd imm8
  | .halt | .call _ | .ret _ | .push _ | .pop _ | .nop _ => true
  | .add _ _ _ | .addi _ _ | .sub _ _ _ => true
  | .and _ _ _ | .or _ _ _ | .xor _ _ _ | .not _ _ _ | .shl _ _ _ | .shr _ _ _ => true
  | .load _ _ _ | .store _ _ _ | .loadi _ _ => true
  | .jmp _ | .beq _ _ => true

end Sys2Proof
end

