-- ==== Sys2Proof/Decode.lean ====
section
/-! DEFINITION. The decoder sub-block DEC (spec/30_encoding.md): field slices, the classification of R63, the decoded
record of R67, the instruction it stands for, the decoder on bytes, the opcode table as rows, and the encoder. -/

namespace Sys2Proof

/-- The seven formats (R62). -/
inductive Format where
  | special | rType | iType | mType | jType | bType | extended
  deriving DecidableEq, Repr

/-- The decoder's mnemonics: the 21 of R64 and UNKNOWN, which no word gives (R66, R156). -/
inductive Mnemonic where
  | nop | add | addi | sub | and | or | xor | not | shl | shr | load | store | loadi | jmp | beq | bne
  | call | ret | push | pop | halt | unknown
  deriving DecidableEq, Repr

/-- The decoded instruction, a record of one word (R67). `ignored4` and `ignored12` are no members of it: they are
the slices `offset` and `addr12` again. -/
structure Decoded where
  format   : Format
  mnemonic : Mnemonic
  opcode   : BitVec 4
  rd       : Reg
  rs       : Reg
  rt       : Reg
  imm8     : BitVec 8
  offset   : BitVec 4
  addr12   : BitVec 12
  deriving DecidableEq, Repr

/-- The classification in a decoded record: its format and mnemonic. -/
def Decoded.kind (d : Decoded) : Format × Mnemonic := (d.format, d.mnemonic)

/-! ### Field slices (R61) -/

/-- A four-bit slice read as a register index. -/
def regOfBits (n : BitVec 4) : Reg := ⟨n.toNat, n.isLt⟩

/-- A register index as the four bits of its field. -/
def bitsOfReg (r : Reg) : BitVec 4 := BitVec.ofNat 4 r.val

/-- `w[15:12]`. -/
def opcodeField (w : Word) : BitVec 4 := w.extractLsb' 12 4

/-- `rd = w[11:8]`. -/
def rdField (w : Word) : Reg := regOfBits (w.extractLsb' 8 4)

/-- `rs = w[7:4]`. -/
def rsField (w : Word) : Reg := regOfBits (w.extractLsb' 4 4)

/-- `rt = w[3:0]`. -/
def rtField (w : Word) : Reg := regOfBits (w.extractLsb' 0 4)

/-- `imm8 = w[7:0]`. -/
def imm8Field (w : Word) : BitVec 8 := w.extractLsb' 0 8

/-- `offset = w[3:0]`, the same slice as `rt`. -/
def offsetField (w : Word) : BitVec 4 := w.extractLsb' 0 4

/-- `addr12 = w[11:0]`. -/
def addr12Field (w : Word) : BitVec 12 := w.extractLsb' 0 12

/-- The selector of the Extended family, `w[11:4]` (R63; conflict C1, log entry 22). -/
def extSelector (w : Word) : BitVec 8 := w.extractLsb' 4 8

/-! ### Classification (R63) -/

/-- The opcode table of test 4 (R64). The default is UNKNOWN (R66); test 3 has taken 0xF before it. -/
def tableRow (op : BitVec 4) : Format × Mnemonic :=
  match op.toNat with
  | 0x0 => (.special, .nop)
  | 0x1 => (.rType, .add)
  | 0x2 => (.iType, .addi)
  | 0x3 => (.rType, .sub)
  | 0x4 => (.rType, .and)
  | 0x5 => (.rType, .or)
  | 0x6 => (.rType, .xor)
  | 0x7 => (.rType, .not)
  | 0x8 => (.rType, .shl)
  | 0x9 => (.rType, .shr)
  | 0xA => (.mType, .load)
  | 0xB => (.mType, .store)
  | 0xC => (.iType, .loadi)
  | 0xD => (.jType, .jmp)
  | 0xE => (.bType, .beq)
  | _   => (.special, .unknown)

/-- Test 3 of R63: the 0xF family, by its selector. -/
def extendedRow (sel : BitVec 8) : Format × Mnemonic :=
  if sel = 0xF0 then (.extended, .call)
  else if sel = 0xF1 then (.extended, .ret)
  else if sel = 0xF2 then (.extended, .push)
  else if sel = 0xF3 then (.extended, .pop)
  else (.bType, .bne)

/-- The four tests of R63, the first that matches deciding. -/
def classify (w : Word) : Format × Mnemonic :=
  if w = Config.nopWord then (.special, .nop)
  else if w = Config.haltWord then (.special, .halt)
  else if opcodeField w = 0xF then extendedRow (extSelector w)
  else tableRow (opcodeField w)

/-- `decode(w)`: pure and total (R66). The opcode member is the top nibble of every word (R67; decision D17, log
entry 15). -/
def decode (w : Word) : Decoded :=
  { format   := (classify w).1
    mnemonic := (classify w).2
    opcode   := opcodeField w
    rd       := rdField w
    rs       := rsField w
    rt       := rtField w
    imm8     := imm8Field w
    offset   := offsetField w
    addr12   := addr12Field w }

/-- The instruction a decoded record stands for, with the fields its format uses (R62); none for UNKNOWN. -/
def Decoded.toInstr (d : Decoded) : Option Instr :=
  match d.mnemonic with
  | .nop     => some (.nop d.addr12)
  | .add     => some (.add d.rd d.rs d.rt)
  | .addi    => some (.addi d.rd d.imm8)
  | .sub     => some (.sub d.rd d.rs d.rt)
  | .and     => some (.and d.rd d.rs d.rt)
  | .or      => some (.or d.rd d.rs d.rt)
  | .xor     => some (.xor d.rd d.rs d.rt)
  | .not     => some (.not d.rd d.rs d.offset)
  | .shl     => some (.shl d.rd d.rs d.rt)
  | .shr     => some (.shr d.rd d.rs d.rt)
  | .load    => some (.load d.rd d.rs d.offset)
  | .store   => some (.store d.rd d.rs d.offset)
  | .loadi   => some (.loadi d.rd d.imm8)
  | .jmp     => some (.jmp d.addr12)
  | .beq     => some (.beq d.rd d.imm8)
  | .bne     => some (.bne d.rd d.imm8)
  | .call    => some (.call d.offset)
  | .ret     => some (.ret d.offset)
  | .push    => some (.push d.offset)
  | .pop     => some (.pop d.offset)
  | .halt    => some .halt
  | .unknown => none

/-- The decoder the engine consumes (R75: one decode function for all). -/
def decodeWord (w : Word) : Option Instr := (decode w).toInstr

/-! ### Words and bytes (R41, R60) -/

/-- The low byte of a word, the one at the lower address. -/
def lowByte (w : Word) : Byte := w.extractLsb' 0 8

/-- The high byte of a word. -/
def highByte (w : Word) : Byte := w.extractLsb' 8 8

/-- The word whose low byte is `lo` and whose high byte is `hi`. -/
def wordOfBytes (lo hi : Byte) : Word := hi ++ lo

/-- Why bytes give no instruction. -/
inductive DecodeError where
  /-- Fewer than the two bytes of an instruction word. Safe: memory is never so short (R60). -/
  | truncated
  /-- The word decodes to UNKNOWN. No word does (R66). -/
  | unknownMnemonic
  deriving DecidableEq, Repr

/-- The decoder on bytes as memory holds them, low byte first: the instruction and the bytes after it (R60). -/
def decodeBytes : List Byte → Except DecodeError (Instr × List Byte)
  | lo :: hi :: rest =>
    match decodeWord (wordOfBytes lo hi) with
    | some i => .ok (i, rest)
    | none   => .error .unknownMnemonic
  | [_] => .error .truncated
  | []  => .error .truncated

/-- The word the opcode table numbers `w` in `nbits` bits, all bits above them 0. -/
def tableWord (nbits w : Nat) : Word := BitVec.ofNat Config.xlen (w % 2 ^ nbits)

/-- The instruction the decoder reads from the two bytes of a table word. -/
def decodeTableWord (nbits w : Nat) : Option Instr :=
  match decodeBytes [lowByte (tableWord nbits w), highByte (tableWord nbits w)] with
  | .ok (i, _) => some i
  | .error _   => none

/-! ### The opcode table as rows (spec/opcode_table.json, in its precedence order) -/

/-- A row of the opcode table. -/
structure OpcodeRow where
  mnemonic : Mnemonic
  mask     : Word
  pattern  : Word
  deriving DecidableEq, Repr

/-- The word has the row's fixed bits. -/
def OpcodeRow.fits (r : OpcodeRow) (w : Word) : Bool := w &&& r.mask == r.pattern

/-- The row of each mnemonic, UNKNOWN having none. -/
def Mnemonic.row : Mnemonic → Option OpcodeRow
  | .halt    => some { mnemonic := .halt,  mask := 0xFFFF, pattern := Config.haltWord }
  | .call    => some { mnemonic := .call,  mask := 0xFFF0, pattern := 0xFF00 }
  | .ret     => some { mnemonic := .ret,   mask := 0xFFF0, pattern := 0xFF10 }
  | .push    => some { mnemonic := .push,  mask := 0xFFF0, pattern := 0xFF20 }
  | .pop     => some { mnemonic := .pop,   mask := 0xFFF0, pattern := 0xFF30 }
  | .bne     => some { mnemonic := .bne,   mask := 0xF000, pattern := 0xF000 }
  | .nop     => some { mnemonic := .nop,   mask := 0xF000, pattern := 0x0000 }
  | .add     => some { mnemonic := .add,   mask := 0xF000, pattern := 0x1000 }
  | .addi    => some { mnemonic := .addi,  mask := 0xF000, pattern := 0x2000 }
  | .sub     => some { mnemonic := .sub,   mask := 0xF000, pattern := 0x3000 }
  | .and     => some { mnemonic := .and,   mask := 0xF000, pattern := 0x4000 }
  | .or      => some { mnemonic := .or,    mask := 0xF000, pattern := 0x5000 }
  | .xor     => some { mnemonic := .xor,   mask := 0xF000, pattern := 0x6000 }
  | .not     => some { mnemonic := .not,   mask := 0xF000, pattern := 0x7000 }
  | .shl     => some { mnemonic := .shl,   mask := 0xF000, pattern := 0x8000 }
  | .shr     => some { mnemonic := .shr,   mask := 0xF000, pattern := 0x9000 }
  | .load    => some { mnemonic := .load,  mask := 0xF000, pattern := 0xA000 }
  | .store   => some { mnemonic := .store, mask := 0xF000, pattern := 0xB000 }
  | .loadi   => some { mnemonic := .loadi, mask := 0xF000, pattern := 0xC000 }
  | .jmp     => some { mnemonic := .jmp,   mask := 0xF000, pattern := 0xD000 }
  | .beq     => some { mnemonic := .beq,   mask := 0xF000, pattern := 0xE000 }
  | .unknown => none

/-- The table scanned from the top: the order of its rows is the decoder's precedence. -/
def opcodeTable : List OpcodeRow :=
  [Mnemonic.halt, .call, .ret, .push, .pop, .bne].filterMap Mnemonic.row ++
  [Mnemonic.nop, .add, .addi, .sub, .and, .or, .xor, .not, .shl, .shr, .load, .store, .loadi, .jmp, .beq].filterMap
    Mnemonic.row

/-- The mnemonic of the first row that fits: "the first row with (w & mask) = match winning". -/
def firstFittingRow (w : Word) : Option Mnemonic :=
  (opcodeTable.find? (·.fits w)).map (·.mnemonic)

/-- The mnemonic of an instruction. -/
def Instr.mnemonic : Instr → Mnemonic
  | .halt      => .halt
  | .call _    => .call
  | .ret _     => .ret
  | .push _    => .push
  | .pop _     => .pop
  | .bne _ _   => .bne
  | .nop _     => .nop
  | .add _ _ _ => .add
  | .addi _ _  => .addi
  | .sub _ _ _ => .sub
  | .and _ _ _ => .and
  | .or _ _ _  => .or
  | .xor _ _ _ => .xor
  | .not _ _ _ => .not
  | .shl _ _ _ => .shl
  | .shr _ _ _ => .shr
  | .load _ _ _  => .load
  | .store _ _ _ => .store
  | .loadi _ _ => .loadi
  | .jmp _     => .jmp
  | .beq _ _   => .beq

/-! ### The encoder, written from the format table of R62 -/

/-- RType and MType: opcode, `rd`, `rs`, and a last nibble. -/
def wordOfNibbles (op : BitVec 4) (rd rs : Reg) (last : BitVec 4) : Word :=
  ((op ++ bitsOfReg rd) ++ bitsOfReg rs) ++ last

/-- IType and BType: opcode, `rd`, `imm8`. -/
def wordOfImm (op : BitVec 4) (rd : Reg) (imm8 : BitVec 8) : Word := (op ++ bitsOfReg rd) ++ imm8

/-- JType and NOP: opcode and twelve bits. -/
def wordOfAddr (op : BitVec 4) (addr12 : BitVec 12) : Word := op ++ addr12

/-- Extended: the twelve fixed bits and four ignored ones. -/
def wordOfExtended (fixed : BitVec 12) (ignored : BitVec 4) : Word := fixed ++ ignored

/-- The word of an instruction (R62, R64). For an instruction that is not well-formed it gives the word another
instruction has (R70). -/
def encode : Instr → Word
  | .halt             => Config.haltWord
  | .call ign         => wordOfExtended 0xFF0 ign
  | .ret ign          => wordOfExtended 0xFF1 ign
  | .push ign         => wordOfExtended 0xFF2 ign
  | .pop ign          => wordOfExtended 0xFF3 ign
  | .bne rd imm8      => wordOfImm 0xF rd imm8
  | .nop ign          => wordOfAddr 0x0 ign
  | .add rd rs rt     => wordOfNibbles 0x1 rd rs (bitsOfReg rt)
  | .addi rd imm8     => wordOfImm 0x2 rd imm8
  | .sub rd rs rt     => wordOfNibbles 0x3 rd rs (bitsOfReg rt)
  | .and rd rs rt     => wordOfNibbles 0x4 rd rs (bitsOfReg rt)
  | .or rd rs rt      => wordOfNibbles 0x5 rd rs (bitsOfReg rt)
  | .xor rd rs rt     => wordOfNibbles 0x6 rd rs (bitsOfReg rt)
  | .not rd rs ign    => wordOfNibbles 0x7 rd rs ign
  | .shl rd rs rt     => wordOfNibbles 0x8 rd rs (bitsOfReg rt)
  | .shr rd rs rt     => wordOfNibbles 0x9 rd rs (bitsOfReg rt)
  | .load rd rs off   => wordOfNibbles 0xA rd rs off
  | .store rd rs off  => wordOfNibbles 0xB rd rs off
  | .loadi rd imm8    => wordOfImm 0xC rd imm8
  | .jmp addr12       => wordOfAddr 0xD addr12
  | .beq rd imm8      => wordOfImm 0xE rd imm8

/-- The bytes of an instruction as memory holds them, low byte first (R60). -/
def encodeBytes (i : Instr) : List Byte := [lowByte (encode i), highByte (encode i)]

end Sys2Proof
end

