-- ==== Sys2Proof/Machine/State.lean ====
section
/-! DEFINITION. The state of the core as plain data, all of spec/10_state.md and nothing else, the reasons a step
can stop, and the state after reset (R32, R190). -/

namespace Sys2Proof.Machine

/-- Memory as address and byte pairs in one canonical form (see `Memory.wf` in Machine/Ops.lean): addresses strictly
rising and below `Config.memSize`, no byte equal to `Config.unlistedByte` (R40). -/
abbrev Memory := List Host.Cell

/-- The state of the core (R10 to R33). General register 0 has no storage (R11): `x` holds registers 1 to 15, register
`i` at position `i - 1` (log entry 25). -/
structure State where
  /-- `x[1]` to `x[15]` (R10, R12). -/
  x       : Vector Word (Config.nreg - 1)
  /-- The address of the next fetch (R14). -/
  pc      : Word
  /-- The live stack pointer (R16). -/
  sp      : Word
  /-- The banked stack pointer of the Kernel ring (R17). -/
  ksp     : Word
  /-- The banked stack pointer of the Supervisor ring (R17). -/
  ssp     : Word
  /-- The banked stack pointer of the User ring (R17). -/
  usp     : Word
  /-- The link register, which nothing but reset writes (R19). -/
  lr      : Word
  /-- The status register (R20); a bit vector, because the host and `saved_sr` see it whole. -/
  sr      : Word
  /-- The current privilege ring (R24). -/
  ring    : Ring
  /-- The exception-save slot of `pc` (R25). -/
  savedPc : Word
  /-- The exception-save slot of `sr` (R25). -/
  savedSr : Word
  /-- The engine is in its terminal state (R27). -/
  halted  : Bool
  /-- Completed steps (R28), unbounded (decision D11, log entry 9). -/
  cycles  : Nat
  /-- The 65,536 bytes of memory (R29, R40). -/
  mem     : Memory
  deriving DecidableEq, Repr

/-- Why a step fails (R98). A failure is handed to the host, changes no state, and enters no handler. -/
inductive Fault where
  /-- `step` was invoked on a halted machine (R91). Raised by `step` only. Safe and exact: the spec names it. -/
  | halted
  /-- The fetched word decodes to UNKNOWN (R98, R156). Raised by `step` only, and never, since no word decodes so
  (R66). Safe. -/
  | invalidOpcode
  deriving DecidableEq, Repr

/-- Why the model gives no meaning. -/
inductive Refusal where
  /-- An instruction without a meaning, by its mnemonic. Safe. No arm of `exec` answers it: all 21 instructions have
  their meaning. -/
  | notModelled (mnemonic : String)
  deriving DecidableEq, Repr

/-- The state after reset with memory contents `image` (R32, R190, R191). `MEM_INIT` is an open parameter (decision D5):
claims about reset can be made for every image. -/
def State.resetWith (image : Memory) : State :=
  { x       := Vector.replicate (Config.nreg - 1) Config.wordReset
    pc      := Config.pcReset
    sp      := Config.kspReset
    ksp     := Config.kspReset
    ssp     := Config.sspReset
    usp     := Config.uspReset
    lr      := Config.wordReset
    sr      := Config.wordReset
    ring    := Config.ringReset
    savedPc := Config.wordReset
    savedSr := Config.wordReset
    halted  := false
    cycles  := 0
    mem     := image }

/-- The machine right after reset (R32, R190). -/
def State.reset : State := State.resetWith Config.memInit

end Sys2Proof.Machine
end

