-- ==== Sys2Proof/Machine/Ops.lean ====
section
/-! DEFINITION. The named operations over memory and registers: the byte memory (spec/20_memory.md), the register
file (spec/10_state.md R11, R12, R17), the fetch (R44, R93), and the privilege-transition controller
(spec/60_exceptions.md R163, R171, R172), taking an exception among them. -/

namespace Sys2Proof.Machine

/-! ### Bytes of memory (R40, R47) -/

/-- `mem[a]`: the byte at an address. -/
def Memory.read (m : Memory) (a : Nat) : Byte :=
  match m with
  | []          => Config.unlistedByte
  | (k, c) :: m => if a = k then c else Memory.read m a

/-- The memory without an entry for `a`. -/
def Memory.drop (m : Memory) (a : Nat) : Memory :=
  match m with
  | []          => []
  | (k, c) :: m => if a = k then Memory.drop m a else (k, c) :: Memory.drop m a

/-- The memory with an entry for `a` put in order, for an `a` that has none. -/
def Memory.place (m : Memory) (a : Nat) (b : Byte) : Memory :=
  match m with
  | []          => [(a, b)]
  | (k, c) :: m => if a < k then (a, b) :: (k, c) :: m else (k, c) :: Memory.place m a b

/-- `mem[a] <- b`, keeping the canonical form: a byte equal to what an unlisted address reads as is not listed. -/
def Memory.write (m : Memory) (a : Nat) (b : Byte) : Memory :=
  if b = Config.unlistedByte then m.drop a else (m.drop a).place a b

/-- The canonical form from address `low` on. -/
def Memory.wfFrom (low : Nat) (m : Memory) : Bool :=
  match m with
  | []          => true
  | (k, c) :: m => decide (low ≤ k) && decide (k < Config.memSize) && c != Config.unlistedByte && Memory.wfFrom (k + 1) m

/-- The canonical form: addresses strictly rising and within the space, no entry equal to `Config.unlistedByte`. -/
def Memory.wf (m : Memory) : Bool := m.wfFrom 0

/-! ### 16-bit accesses (R41 to R44) -/

/-- The two bytes of a 16-bit access at `a` are both within memory: `a + 1` does not exceed the bound (R42). -/
def accessInBounds (a : Word) : Bool := a.toNat + 1 < Config.memSize

/-- `MemRead(a, 2)`: little-endian; 0 where the access is out of bounds (R42). -/
def Memory.readWord (m : Memory) (a : Word) : Word :=
  if accessInBounds a then wordOfBytes (m.read a.toNat) (m.read (a.toNat + 1)) else 0

/-- `MemWrite(a, 2, v)`: little-endian; nothing where the access is out of bounds, not even the low byte (R43). -/
def Memory.writeWord (m : Memory) (a v : Word) : Memory :=
  if accessInBounds a then (m.write a.toNat (lowByte v)).write (a.toNat + 1) (highByte v) else m

/-- `Fetch(a)`: the word at `a`, or the HALT word where the access is out of bounds (R44). -/
def Memory.fetch (m : Memory) (a : Word) : Word :=
  if accessInBounds a then m.readWord a else Config.haltWord

/-- `load_program(words, base)` on memory: word `i` goes to `base + 2 i`; the first word that would pass the bound, and
every later one, is dropped (R55; decision D19, log entry 17). -/
def Memory.loadWords (m : Memory) (base : Nat) (words : List Word) : Memory :=
  match words with
  | []      => m
  | w :: ws =>
    if base + 1 < Config.memSize then
      Memory.loadWords ((m.write base (lowByte w)).write (base + 1) (highByte w)) (base + 2) ws
    else m

/-! ### One home for every write of a field -/

/-- `pc <- v`. -/
def State.setPc (s : State) (v : Word) : State := { s with pc := v }

/-- `sp <- v`. -/
def State.setSp (s : State) (v : Word) : State := { s with sp := v }

/-- `sr <- v`. -/
def State.setSr (s : State) (v : Word) : State := { s with sr := v }

/-- `ring <- r`. -/
def State.setRing (s : State) (r : Ring) : State := { s with ring := r }

/-- `saved_pc <- v`. -/
def State.setSavedPc (s : State) (v : Word) : State := { s with savedPc := v }

/-- `saved_sr <- v`. -/
def State.setSavedSr (s : State) (v : Word) : State := { s with savedSr := v }

/-- `halted <- b`. -/
def State.setHalted (s : State) (b : Bool) : State := { s with halted := b }

/-- `cycles <- cycles + 1` (R102). -/
def State.addCycle (s : State) : State := { s with cycles := s.cycles + 1 }

/-- Memory replaced. -/
def State.setMem (s : State) (m : Memory) : State := { s with mem := m }

/-- `bank[r]`: the slot of a ring (R17). -/
def State.bank (s : State) : Ring → Word
  | .kernel     => s.ksp
  | .supervisor => s.ssp
  | .user       => s.usp

/-- `bank[r] <- v`. -/
def State.setBank (s : State) (r : Ring) (v : Word) : State :=
  match r with
  | .kernel     => { s with ksp := v }
  | .supervisor => { s with ssp := v }
  | .user       => { s with usp := v }

/-! ### General registers (R11, R12) -/

/-- `read_gp(i)`: 0 for register 0 and for an index of 16 or more, the stored value otherwise. -/
def State.readGp (s : State) (i : Nat) : Word :=
  if h : 1 ≤ i ∧ i < Config.nreg then s.x[i - 1] else 0

/-- `write_gp(i, v)`: nothing for register 0 and for an index of 16 or more. -/
def State.writeGp (s : State) (i : Nat) (v : Word) : State :=
  if h : 1 ≤ i ∧ i < Config.nreg then { s with x := s.x.set (i - 1) v } else s

/-- `x[r]` of an instruction's register field. -/
def State.reg (s : State) (r : Reg) : Word := s.readGp r.val

/-- `x[r] <- v` of an instruction's register field. -/
def State.setReg (s : State) (r : Reg) (v : Word) : State := s.writeGp r.val v

/-! ### The fetch stage (R93) -/

/-- The word the next step fetches. -/
def State.fetchWord (s : State) : Word := s.mem.fetch s.pc

/-- `pc <- (pc + 2) mod 2^16`, in every case, the out-of-bounds fetch included (decision D7, log entry 5). -/
def State.advancePc (s : State) : State := s.setPc (s.pc + Config.instrBytes)

/-! ### The privilege-transition controller (R163, R171, R172) -/

/-- Taking an exception, `raise_privilege_on_exception()`, in the order of R163: save `pc` and `sr`, bank the live
stack pointer unless it is the kernel's (conflict C6, log entry 35), enter the Kernel ring, load its stack pointer, go
to the handler. It acts whether or not the machine is halted and counts no cycle (R182; decision D13, log entry 11).
THE RETURN FROM IT: the spec defines none (R166; decision D14, log entry 12). No operation reads `savedPc` or `savedSr`
back; what exists for leaving the Kernel ring is `State.dropPrivilege`. -/
def State.raisePrivilegeOnException (s : State) : State :=
  let s := s.setSavedPc s.pc
  let s := s.setSavedSr s.sr
  let s := if s.ring = .kernel then s else s.setBank s.ring s.sp
  let s := s.setRing .kernel
  let s := s.setSp s.ksp
  s.setPc Config.excHandler

/-- `enter_kernel_mode()` (R171): acts from the User ring only; from Supervisor it does nothing. -/
def State.enterKernelMode (s : State) : State :=
  match s.ring with
  | .user =>
    let s := s.setBank .user s.sp
    let s := s.setSp s.ksp
    s.setRing .kernel
  | .supervisor => s
  | .kernel     => s

/-- `drop_privilege(target)` (R172): bank the live stack pointer, load the target's, change the ring; no check of the
direction (decision D15, log entry 13). -/
def State.dropPrivilege (s : State) (target : Ring) : State :=
  let s := s.setBank s.ring s.sp
  let s := s.setSp (s.bank target)
  s.setRing target

/-- `is_kernel_mode` (R174). -/
def State.isKernelMode (s : State) : Bool := s.ring == .kernel

/-- `is_supervisor_mode` (R174). -/
def State.isSupervisorMode (s : State) : Bool := s.ring == .supervisor

/-- `is_user_mode` (R174). -/
def State.isUserMode (s : State) : Bool := s.ring == .user

end Sys2Proof.Machine
end

