-- ==== Sys2Proof/Machine/Flags.lean ====
section
/-! DEFINITION. The flag unit FLG: `to_bits` and `from_bits` (spec/10_state.md R22), the four flags of `sr` (R20),
and the two flag updates of spec/40_engine_step.md R96. -/

namespace Sys2Proof

/-- `w` with bit `i` set to `b`. -/
def putBit (w : Word) (i : Fin Config.xlen) (b : Bool) : Word :=
  if b then w ||| BitVec.twoPow Config.xlen i.val else w &&& ~~~(BitVec.twoPow Config.xlen i.val)

/-- `to_bits(f)`: the flags at their positions, every other bit 0 (R22). -/
def FlagLayout.toBits (L : FlagLayout) (f : Flags) : Word :=
  putBit (putBit (putBit (putBit 0 L.zBit f.zero) L.nBit f.negative) L.cBit f.carry) L.vBit f.overflow

/-- `from_bits(w)`: the flags read from their positions, every other bit ignored (R22). -/
def FlagLayout.fromBits (L : FlagLayout) (w : Word) : Flags :=
  { zero     := w.getLsbD L.zBit.val
    negative := w.getLsbD L.nBit.val
    carry    := w.getLsbD L.cBit.val
    overflow := w.getLsbD L.vBit.val }

namespace Machine

/-- The four flags of `sr`. -/
def State.flags (s : State) : Flags := Config.flagLayout.fromBits s.sr

/-- The zero flag of a result (R21; decision D23, log entry 21). -/
def isZero (r : Word) : Bool := r == 0

/-- The negative flag of a result: its bit 15 (R21; decision D23, log entry 21). -/
def isNegative (r : Word) : Bool := r.getLsbD (Config.xlen - 1)

/-- Class ZN of R96: Z and N from the result, every other bit of `sr` kept. -/
def srZN (sr r : Word) : Word :=
  putBit (putBit sr Config.flagLayout.zBit (isZero r)) Config.flagLayout.nBit (isNegative r)

/-- Class ZNC of R96: Z, N and C, every other bit of `sr` kept, V among them. -/
def srZNC (sr r : Word) (carry : Bool) : Word := putBit (srZN sr r) Config.flagLayout.cBit carry

/-- The widened sum of ADD and ADDI, formed exactly (R110, R113; log entry 36). -/
def wideSum (a b : Word) : Nat := a.toNat + b.toNat

/-- `sum > 0xFFFF`: the sum does not fit a word (R96, R110). -/
def carryOut (sum : Nat) : Bool := 2 ^ Config.xlen ≤ sum

/-- The end of an instruction of class ZN: the result goes to `rd`, then Z and N are written from the result, whether
or not the write was discarded (R95, R96; decision D10, log entry 8). -/
def State.finishZN (s : State) (rd : Reg) (r : Word) : State :=
  let s := s.setReg rd r
  s.setSr (srZN s.sr r)

/-- The end of an instruction of class ZNC: the low 16 bits of the widened sum go to `rd`, then Z, N and C are
written. -/
def State.finishZNC (s : State) (rd : Reg) (sum : Nat) : State :=
  let r : Word := BitVec.ofNat Config.xlen sum
  let s := s.setReg rd r
  s.setSr (srZNC s.sr r (carryOut sum))

end Machine

end Sys2Proof
end

