-- ==== Sys2Proof/Machine/Operands.lean ====
section
/-! DEFINITION. How an instruction turns its fields into operands (spec/30_encoding.md R68): the immediates, the
branch and jump targets (R140, R143), the effective address (R130), the shift amount (R124). -/

namespace Sys2Proof.Machine

/-- ADDI's immediate: `zext_16(imm8)`. -/
def zeroExtendImm (imm8 : BitVec 8) : Word := imm8.setWidth Config.xlen

/-- LOADI's immediate: `sext_16(imm8)`, bit 7 copied into the high byte. -/
def signExtendImm (imm8 : BitVec 8) : Word := imm8.signExtend Config.xlen

/-- The byte displacement of BEQ and BNE: the signed word count doubled. -/
def branchDisplacement (imm8 : BitVec 8) : Word := 2 * signExtendImm imm8

/-- The target of BEQ and BNE from the already advanced `pc`, wrapping (R143). -/
def branchTarget (pc : Word) (imm8 : BitVec 8) : Word := pc + branchDisplacement imm8

/-- JMP's target: `zext_16(addr12)`, a byte address, not scaled (R140). -/
def jumpTarget (addr12 : BitVec 12) : Word := addr12.setWidth Config.xlen

/-- The one addressing mode, `(base + 2 * offset) mod 2^16` (R130; decision D8, log entry 6). -/
def effectiveAddress (base : Word) (offset : BitVec 4) : Word := base + 2 * offset.setWidth Config.xlen

/-- The shift amount of SHL and SHR: the low four bits of the amount register's value (R124; decision D9, log entry
7). -/
def shiftAmount (v : Word) : Nat := (v.extractLsb' 0 4).toNat

end Sys2Proof.Machine
end

