-- ==== Sys2Proof/Machine/Arithmetic.lean ====
section
/-! DEFINITION. ADD, ADDI and SUB (spec/41_arithmetic.md). A meaning is the execute and flag-update stages of a step:
the state it is given has its `pc` advanced already (R92, R93). -/

namespace Sys2Proof.Machine

/-- ADD rd,rs,rt (R110). -/
def execAdd (rd rs rt : Reg) (s : State) : Host.Outcome State Fault Refusal :=
  .next (s.finishZNC rd (wideSum (s.reg rs) (s.reg rt)))

/-- ADDI rd,imm8 (R111): the register is source and destination, the immediate zero-extended. -/
def execAddi (rd : Reg) (imm8 : BitVec 8) (s : State) : Host.Outcome State Fault Refusal :=
  .next (s.finishZNC rd (wideSum (s.reg rd) (zeroExtendImm imm8)))

/-- SUB rd,rs,rt (R112): no borrow is recorded, C and V are kept. -/
def execSub (rd rs rt : Reg) (s : State) : Host.Outcome State Fault Refusal :=
  .next (s.finishZN rd (s.reg rs - s.reg rt))

end Sys2Proof.Machine
end

