-- ==== Sys2Proof/Machine/Control.lean ====
section
/-! DEFINITION. JMP, BEQ and BNE (spec/44_control.md). The `pc` of the state is the advanced one. None of them writes a
flag or a general register, and none reads a flag. -/

namespace Sys2Proof.Machine

/-- JMP addr12 (R140). -/
def execJmp (addr12 : BitVec 12) (s : State) : Host.Outcome State Fault Refusal :=
  .next (s.setPc (jumpTarget addr12))

/-- A branch taken or not (R143). -/
def State.branchIf (s : State) (taken : Bool) (imm8 : BitVec 8) : State :=
  if taken then s.setPc (branchTarget s.pc imm8) else s

/-- BEQ rd,imm8 (R141): taken when the register is zero. -/
def execBeq (rd : Reg) (imm8 : BitVec 8) (s : State) : Host.Outcome State Fault Refusal :=
  .next (s.branchIf (s.reg rd == 0) imm8)

/-- BNE rd,imm8 (R142): taken when the register is not zero. -/
def execBne (rd : Reg) (imm8 : BitVec 8) (s : State) : Host.Outcome State Fault Refusal :=
  .next (s.branchIf (s.reg rd != 0) imm8)

end Sys2Proof.Machine
end

