-- ==== Sys2Proof/Machine/LoadStore.lean ====
section
/-! DEFINITION. LOAD, STORE and LOADI (spec/43_load_store.md). None of them writes a flag. -/

namespace Sys2Proof.Machine

/-- LOAD rd,rs,offset (R131): 0 from an out-of-bounds address. -/
def execLoad (rd rs : Reg) (offset : BitVec 4) (s : State) : Host.Outcome State Fault Refusal :=
  .next (s.setReg rd (s.mem.readWord (effectiveAddress (s.reg rs) offset)))

/-- STORE rd,rs,offset (R132): nothing at an out-of-bounds address. -/
def execStore (rd rs : Reg) (offset : BitVec 4) (s : State) : Host.Outcome State Fault Refusal :=
  .next (s.setMem (s.mem.writeWord (effectiveAddress (s.reg rs) offset) (s.reg rd)))

/-- LOADI rd,imm8 (R133): the immediate sign-extended. -/
def execLoadi (rd : Reg) (imm8 : BitVec 8) (s : State) : Host.Outcome State Fault Refusal :=
  .next (s.setReg rd (signExtendImm imm8))

end Sys2Proof.Machine
end

