-- ==== Sys2Proof/Machine/Logic.lean ====
section
/-! DEFINITION. AND, OR, XOR, NOT, SHL and SHR (spec/42_logic_shift.md), all of flag class ZN. -/

namespace Sys2Proof.Machine

/-- AND rd,rs,rt (R120). -/
def execAnd (rd rs rt : Reg) (s : State) : Host.Outcome State Fault Refusal :=
  .next (s.finishZN rd (s.reg rs &&& s.reg rt))

/-- OR rd,rs,rt (R121). -/
def execOr (rd rs rt : Reg) (s : State) : Host.Outcome State Fault Refusal :=
  .next (s.finishZN rd (s.reg rs ||| s.reg rt))

/-- XOR rd,rs,rt (R122). -/
def execXor (rd rs rt : Reg) (s : State) : Host.Outcome State Fault Refusal :=
  .next (s.finishZN rd (s.reg rs ^^^ s.reg rt))

/-- NOT rd,rs (R123): two register operands (conflict C3, log entry 23). -/
def execNot (rd rs : Reg) (s : State) : Host.Outcome State Fault Refusal :=
  .next (s.finishZN rd (~~~(s.reg rs)))

/-- SHL rd,rs,rt (R124). -/
def execShl (rd rs rt : Reg) (s : State) : Host.Outcome State Fault Refusal :=
  .next (s.finishZN rd (s.reg rs <<< shiftAmount (s.reg rt)))

/-- SHR rd,rs,rt (R125): logical. -/
def execShr (rd rs rt : Reg) (s : State) : Host.Outcome State Fault Refusal :=
  .next (s.finishZN rd (s.reg rs >>> shiftAmount (s.reg rt)))

end Sys2Proof.Machine
end

