-- ==== Sys2Proof/Machine/Special.lean ====
section
/-! DEFINITION. NOP, HALT, CALL, RET, PUSH and POP (spec/45_special_extended.md). The spec makes CALL, RET, PUSH and POP
no-ops and warns against the effect their names suggest (R152 to R155). -/

namespace Sys2Proof.Machine

/-- NOP (R150; decision D6, log entry 20). -/
def execNop (s : State) : Host.Outcome State Fault Refusal := .next s

/-- HALT (R151): the step that executes it succeeds. -/
def execHalt (s : State) : Host.Outcome State Fault Refusal := .next (s.setHalted true)

/-- CALL (R152): `lr` is not written and `pc` not redirected. -/
def execCall (s : State) : Host.Outcome State Fault Refusal := .next s

/-- RET (R153): no return of any kind, from an exception neither. -/
def execRet (s : State) : Host.Outcome State Fault Refusal := .next s

/-- PUSH (R154): `sp` and memory are untouched. -/
def execPush (s : State) : Host.Outcome State Fault Refusal := .next s

/-- POP (R155): `sp` and the registers are untouched. -/
def execPop (s : State) : Host.Outcome State Fault Refusal := .next s

end Sys2Proof.Machine
end

