-- ==== Sys2Proof/Machine/Dispatch.lean ====
section
/-! DEFINITION. The dispatch of the execute stage (spec/40_engine_step.md R94): one arm for each instruction, none of
them looking at the ring. -/

namespace Sys2Proof.Machine

def exec (i : Instr) (s : State) : Host.Outcome State Fault Refusal :=
  match i with
  | .halt => Sys2Proof.Machine.execHalt s
  | .call _ => Sys2Proof.Machine.execCall s
  | .ret _ => Sys2Proof.Machine.execRet s
  | .push _ => Sys2Proof.Machine.execPush s
  | .pop _ => Sys2Proof.Machine.execPop s
  | .bne rd imm8 => Sys2Proof.Machine.execBne rd imm8 s
  | .nop _ => Sys2Proof.Machine.execNop s
  | .add rd rs rt => Sys2Proof.Machine.execAdd rd rs rt s
  | .addi rd imm8 => Sys2Proof.Machine.execAddi rd imm8 s
  | .sub rd rs rt => Sys2Proof.Machine.execSub rd rs rt s
  | .and rd rs rt => Sys2Proof.Machine.execAnd rd rs rt s
  | .or rd rs rt => Sys2Proof.Machine.execOr rd rs rt s
  | .xor rd rs rt => Sys2Proof.Machine.execXor rd rs rt s
  | .not rd rs _ => Sys2Proof.Machine.execNot rd rs s
  | .shl rd rs rt => Sys2Proof.Machine.execShl rd rs rt s
  | .shr rd rs rt => Sys2Proof.Machine.execShr rd rs rt s
  | .load rd rs offset => Sys2Proof.Machine.execLoad rd rs offset s
  | .store rd rs offset => Sys2Proof.Machine.execStore rd rs offset s
  | .loadi rd imm8 => Sys2Proof.Machine.execLoadi rd imm8 s
  | .jmp addr12 => Sys2Proof.Machine.execJmp addr12 s
  | .beq rd imm8 => Sys2Proof.Machine.execBeq rd imm8 s

end Sys2Proof.Machine
end

