-- ==== Sys2Proof/Machine/Step.lean ====
section
/-! DEFINITION. One step of the engine (spec/40_engine_step.md R91 to R96, R102), and the placing of an instruction
where the next step fetches it. -/

namespace Sys2Proof.Machine

/-- The end of a step that does not fail: one cycle more (R102). -/
def countCycle : Host.Outcome State Fault Refusal → Host.Outcome State Fault Refusal
  | .next s    => .next s.addCycle
  | .fault f   => .fault f
  | .refused r => .refused r

/-- `step()`: on a halted machine the failure `Halted`, changing nothing (R91); otherwise fetch, advance `pc`, decode,
execute with the flag update, count a cycle (R92). UNKNOWN, which no word gives, would be `InvalidOpcode` (R98). No
exception entry happens inside a step (R103, R162; log entry 11). -/
def step (s : State) : Host.Outcome State Fault Refusal :=
  if s.halted then .fault .halted
  else
    match decodeWord s.fetchWord with
    | some i => countCycle (exec i s.advancePc)
    | none   => .fault .invalidOpcode

/-- The state with a table word stored where the next step fetches: the two bytes at `pc`. At `pc = 0xFFFF` no word can
be fetched from memory (R44) and nothing is stored; a halted machine stays halted (log entry 27). -/
def State.withFetchWord (s : State) (nbits w : Nat) : State :=
  s.setMem (s.mem.writeWord s.pc (tableWord nbits w))

end Sys2Proof.Machine
end

