-- ==== Sys2Proof/Machine/HostOps.lean ====
section
/-! DEFINITION. The interface of the block as atomic operations (spec/00_scope.md section 6; decision D1, log entry 24):
every operation, its effect on the state and its reply, and a schedule of operations (R103). `exception_request` is the
operation `raisePrivilegeOnException`, deliverable between any two steps (R162; log entry 11). -/

namespace Sys2Proof.Machine

/-- The operations of the interface, in the order of the table of spec/00_scope.md section 6. -/
inductive HostOp where
  /-- `decode(word)`. -/
  | decode (word : Word)
  /-- `read_gp(i)`. -/
  | readGp (i : Nat)
  /-- `write_gp(i, v)`. -/
  | writeGp (i : Nat) (v : Word)
  /-- `enter_kernel_mode()`. -/
  | enterKernelMode
  /-- `drop_privilege(target)`. -/
  | dropPrivilege (target : Ring)
  /-- `raise_privilege_on_exception()`, the event `exception_request`. -/
  | raisePrivilegeOnException
  /-- `is_kernel_mode`. -/
  | isKernelMode
  /-- `is_supervisor_mode`. -/
  | isSupervisorMode
  /-- `is_user_mode`. -/
  | isUserMode
  /-- `step()`. -/
  | step
  /-- `run(max_cycles)`. -/
  | run (maxCycles : Nat)
  /-- `load_program(words, base)`. -/
  | loadProgram (words : List Word) (base : Nat)
  /-- `lookup(name)`. -/
  | lookup (name : String)
  /-- `reset()`. -/
  | reset
  deriving DecidableEq, Repr

/-- What an operation hands back to the host. -/
inductive Reply where
  /-- Success without a value. -/
  | done
  /-- A decoded record. -/
  | decoded (d : Decoded)
  /-- A register's value. -/
  | word (v : Word)
  /-- A value, or "not found" (R100). -/
  | found (v : Option Word)
  /-- A boolean. -/
  | truth (b : Bool)
  /-- The number of steps an invocation of `run` took (R97). -/
  | consumed (n : Nat)
  /-- A failure; the state is as it was before the failing step (R98). -/
  | failed (f : Fault)
  /-- The model gives the step no meaning; no instruction is refused, so no reply is this one. -/
  | refused (r : Refusal)
  deriving DecidableEq, Repr

/-- `step()` as an operation: a failure changes no state (R91, R98). -/
def stepOp (s : State) : State × Reply :=
  match step s with
  | .next t    => (t, .done)
  | .fault f   => (s, .failed f)
  | .refused r => (s, .refused r)

/-- One more step counted; a failure is handed on. -/
def Reply.oneMore : Reply → Reply
  | .consumed n => .consumed (n + 1)
  | r           => r

/-- `run(max_cycles)`: `halted` is tested before each step, and the reply counts the steps of this invocation (R97;
decision D12, log entry 10). A failing step would end it, with the effects of the steps before it kept. -/
def run : Nat → State → State × Reply
  | 0,     s => (s, .consumed 0)
  | n + 1, s =>
    if s.halted then (s, .consumed 0)
    else
      match step s with
      | .next t    => ((run n t).1, (run n t).2.oneMore)
      | .fault f   => (s, .failed f)
      | .refused r => (s, .refused r)

/-- The value of a hexadecimal digit in capitals. -/
def hexDigit (c : Char) : Option Nat :=
  if '0'.toNat ≤ c.toNat ∧ c.toNat ≤ '9'.toNat then some (c.toNat - '0'.toNat)
  else if 'A'.toNat ≤ c.toNat ∧ c.toNat ≤ 'F'.toNat then some (c.toNat - 'A'.toNat + 10)
  else none

/-- `lookup` on the characters of a name, in capitals: `PC`, `SP`, `LR`, `SR`, or `R` and one hexadecimal digit
(R100). -/
def State.lookupUpper (s : State) : List Char → Option Word
  | ['P', 'C'] => some s.pc
  | ['S', 'P'] => some s.sp
  | ['L', 'R'] => some s.lr
  | ['S', 'R'] => some s.sr
  | ['R', d]   => (hexDigit d).map s.readGp
  | _          => none

/-- `lookup(name)`: case-insensitive (R100; log entry 29); none is "not found". -/
def State.lookup (s : State) (name : String) : Option Word := s.lookupUpper (name.toList.map Char.toUpper)

/-- `load_program(words, base)`: memory and nothing else (R55, R99). -/
def State.loadProgram (s : State) (words : List Word) (base : Nat) : State :=
  s.setMem (s.mem.loadWords base words)

/-- One operation: the state after it and its reply. `image` is `MEM_INIT`, the contents that `reset` restores (R191;
decision D5). -/
def perform (image : Memory) (op : HostOp) (s : State) : State × Reply :=
  match op with
  | .decode w                  => (s, .decoded (Sys2Proof.decode w))
  | .readGp i                  => (s, .word (s.readGp i))
  | .writeGp i v               => (s.writeGp i v, .done)
  | .enterKernelMode           => (s.enterKernelMode, .done)
  | .dropPrivilege target      => (s.dropPrivilege target, .done)
  | .raisePrivilegeOnException => (s.raisePrivilegeOnException, .done)
  | .isKernelMode              => (s, .truth s.isKernelMode)
  | .isSupervisorMode          => (s, .truth s.isSupervisorMode)
  | .isUserMode                => (s, .truth s.isUserMode)
  | .step                      => stepOp s
  | .run n                     => run n s
  | .loadProgram words base    => (s.loadProgram words base, .done)
  | .lookup name               => (s, .found (s.lookup name))
  | .reset                     => (State.resetWith image, .done)

/-- A schedule of operations, one after another (R103). -/
def performAll (image : Memory) : List HostOp → State → State
  | [],        s => s
  | op :: ops, s => performAll image ops (perform image op s).1

end Sys2Proof.Machine
end

