-- ==== Sys2Proof/Safety.lean ====
section
/-! DEFINITION. The terms claims use: what two states may differ in, the invariant of reachable states, what a program
can see, and what a good run is. -/

namespace Sys2Proof.Machine

/-! ### Frames -/

/-- Nothing outside the general registers, `pc`, `sr`, `halted` and memory differs: the stack pointers, `lr`, the ring,
the exception-save registers and the cycle count are the same. No instruction writes any of these (R13, R16, R19, R24,
R25). -/
structure SameSpecial (s t : State) : Prop where
  sp      : t.sp = s.sp
  ksp     : t.ksp = s.ksp
  ssp     : t.ssp = s.ssp
  usp     : t.usp = s.usp
  lr      : t.lr = s.lr
  ring    : t.ring = s.ring
  savedPc : t.savedPc = s.savedPc
  savedSr : t.savedSr = s.savedSr
  cycles  : t.cycles = s.cycles

/-- Every general register reads the same. -/
def SameRegs (s t : State) : Prop := ∀ r : Reg, t.reg r = s.reg r

/-- Every general register but `rd` reads the same. -/
def SameRegsExcept (rd : Reg) (s t : State) : Prop := ∀ r : Reg, r ≠ rd → t.reg r = s.reg r

/-- Every byte of memory reads the same. -/
def SameMem (s t : State) : Prop := ∀ a : Nat, t.mem.read a = s.mem.read a

/-- Every byte of memory but the two at `a` and `a + 1` reads the same. -/
def SameMemExcept (a : Nat) (s t : State) : Prop :=
  ∀ b : Nat, b ≠ a → b ≠ a + 1 → t.mem.read b = s.mem.read b

/-- `rd` holds `v`, or still reads 0 where `rd` is register 0 (R11, R95), and every other register reads the same. -/
def WritesReg (rd : Reg) (v : Word) (s t : State) : Prop :=
  t.reg rd = (if rd = 0 then 0 else v) ∧ SameRegsExcept rd s t

/-- The bits of `sr` that are no flag are the same. -/
def SameOtherSrBits (s t : State) : Prop :=
  ∀ k : Fin Config.xlen, k ≠ Config.flagLayout.zBit → k ≠ Config.flagLayout.nBit → k ≠ Config.flagLayout.cBit →
    k ≠ Config.flagLayout.vBit → t.sr.getLsbD k.val = s.sr.getLsbD k.val

/-- Class ZN of R96: Z is "the result is 0", N is bit 15 of the result, C, V and the other bits of `sr` are kept. -/
def WritesZN (r : Word) (s t : State) : Prop :=
  t.flags.zero = decide (r.toNat = 0) ∧ t.flags.negative = decide (0x8000 ≤ r.toNat) ∧
  t.flags.carry = s.flags.carry ∧ t.flags.overflow = s.flags.overflow ∧ SameOtherSrBits s t

/-- Class ZNC of R96: Z, N and C from the widened sum, V and the other bits of `sr` are kept. -/
def WritesZNC (sum : Nat) (s t : State) : Prop :=
  t.flags.zero = decide (sum % 0x10000 = 0) ∧ t.flags.negative = decide (0x8000 ≤ sum % 0x10000) ∧
  t.flags.carry = decide (0xFFFF < sum) ∧ t.flags.overflow = s.flags.overflow ∧ SameOtherSrBits s t

/-- What an instruction leaves alone that stores nothing, transfers no control and does not halt: all but its
destination register and the flags. -/
def SameElsewhere (s t : State) : Prop :=
  SameSpecial s t ∧ t.pc = s.pc ∧ t.halted = s.halted ∧ SameMem s t

/-! ### What an instruction may write (R13, R21) -/

/-- The general register an instruction writes (R13). -/
def destination : Instr → Option Reg
  | .add rd _ _ | .addi rd _ | .sub rd _ _ => some rd
  | .and rd _ _ | .or rd _ _ | .xor rd _ _ | .not rd _ _ | .shl rd _ _ | .shr rd _ _ => some rd
  | .load rd _ _ | .loadi rd _ => some rd
  | .halt | .call _ | .ret _ | .push _ | .pop _ | .bne _ _ | .nop _ | .store _ _ _ | .jmp _ | .beq _ _ => none

/-- The instruction is in flag class ZNC (R96). -/
def writesCarry : Instr → Bool
  | .add _ _ _ | .addi _ _ => true
  | .sub _ _ _ | .and _ _ _ | .or _ _ _ | .xor _ _ _ | .not _ _ _ | .shl _ _ _ | .shr _ _ _ => false
  | .load _ _ _ | .store _ _ _ | .loadi _ _ | .jmp _ | .beq _ _ | .bne _ _ => false
  | .halt | .call _ | .ret _ | .push _ | .pop _ | .nop _ => false

/-- The instruction is in flag class ZNC or ZN (R96). -/
def writesZeroNegative : Instr → Bool
  | .add _ _ _ | .addi _ _ => true
  | .sub _ _ _ | .and _ _ _ | .or _ _ _ | .xor _ _ _ | .not _ _ _ | .shl _ _ _ | .shr _ _ _ => true
  | .load _ _ _ | .store _ _ _ | .loadi _ _ | .jmp _ | .beq _ _ | .bne _ _ => false
  | .halt | .call _ | .ret _ | .push _ | .pop _ | .nop _ => false

/-- The instruction transfers control (R15). -/
def transfersControl : Instr → Bool
  | .jmp _ | .beq _ _ | .bne _ _ => true
  | .add _ _ _ | .addi _ _ | .sub _ _ _ | .and _ _ _ | .or _ _ _ | .xor _ _ _ | .not _ _ _ | .shl _ _ _ => false
  | .shr _ _ _ | .load _ _ _ | .store _ _ _ | .loadi _ _ => false
  | .halt | .call _ | .ret _ | .push _ | .pop _ | .nop _ => false

/-! ### The invariant of reachable states -/

/-- What holds in every state a schedule of host operations reaches from reset: memory is in its canonical form (R40); the
live stack pointer is the bank of the ring (R18); the banks and `lr` hold their reset values (R18, R19); V is clear
(R23) and so are the bits of `sr` that are no flag (R20). -/
structure State.Inv (s : State) : Prop where
  memCanonical  : s.mem.wf = true
  spIsBank      : s.sp = s.bank s.ring
  kspConstant   : s.ksp = Config.kspReset
  sspConstant   : s.ssp = Config.sspReset
  uspConstant   : s.usp = Config.uspReset
  lrConstant    : s.lr = Config.wordReset
  overflowClear : s.flags.overflow = false
  otherBitsZero : ∀ k : Fin Config.xlen, k ≠ Config.flagLayout.zBit → k ≠ Config.flagLayout.nBit →
    k ≠ Config.flagLayout.cBit → k ≠ Config.flagLayout.vBit → s.sr.getLsbD k.val = false

/-! ### What a program can see (R33) -/

/-- Two states a program cannot tell apart: the same general registers, `pc`, `halted` and memory, whatever `sp`, the banks,
`lr`, `sr`, the ring, the save registers and the cycle count are. -/
structure SameToProgram (s t : State) : Prop where
  regs   : SameRegs s t
  pc     : t.pc = s.pc
  halted : t.halted = s.halted
  mem    : SameMem s t

/-! ### Good runs -/

/-- `k` steps one after another, stopping at the first that does not answer a next state. -/
def stepTimes : Nat → State → Host.Outcome State Fault Refusal
  | 0,     s => .next s
  | k + 1, s =>
    match step s with
    | .next t    => stepTimes k t
    | .fault f   => .fault f
    | .refused r => .refused r

/-- A step that is allowed to happen in a good run: it answers a next state, or the machine has halted and the host is
told so (R5, R98). -/
def State.StepIsGood (s : State) : Prop :=
  (∃ t, step s = .next t) ∨ (s.halted = true ∧ step s = .fault .halted)

end Sys2Proof.Machine
end

