-- ==== Sys2Proof/Certificates/Slice0/Obligations.lean ====
section
/-! DEFINITION. The statements for the provers. A statement whose docstring names a log entry rests on a decision of
spec/92_eei_decisions.md or on general knowledge the spec marks as such; the log entry says which. -/

open Sys2Proof Sys2Proof.Machine

/-! ## The decoder -/

/-- Decoding the word of a well-formed instruction gives the instruction back, every field, ignored bits included
(R62, R63, R70). -/
def Obligations.DecodeEncodeRoundTrip : Prop :=
  ∀ i : Instr, i.WellFormed = true → decodeWord (encode i) = some i

/-- Every word decodes to a well-formed instruction whose word it is: no word is refused, no bit is lost (R66, R69). -/
def Obligations.EncodeDecodeRoundTrip : Prop :=
  ∀ w : Word, ∃ i : Instr, decodeWord w = some i ∧ i.WellFormed = true ∧ encode i = w

/-- R63: the four tests in their order, on the number of the word; the Extended words are exactly 0xFF00 to 0xFF3F, and
0xF3FD is BNE (conflict C1). -/
def Obligations.DecoderFollowsPrecedence : Prop :=
  (∀ w : Word,
    (w.toNat = 0x0000 → (decode w).kind = (.special, .nop)) ∧
    (w.toNat = 0xFFFF → (decode w).kind = (.special, .halt)) ∧
    (w.toNat / 4096 = 0xF → w.toNat ≠ 0xFFFF →
      (w.toNat / 16 % 256 = 0xF0 → (decode w).kind = (.extended, .call)) ∧
      (w.toNat / 16 % 256 = 0xF1 → (decode w).kind = (.extended, .ret)) ∧
      (w.toNat / 16 % 256 = 0xF2 → (decode w).kind = (.extended, .push)) ∧
      (w.toNat / 16 % 256 = 0xF3 → (decode w).kind = (.extended, .pop)) ∧
      (¬(0xF0 ≤ w.toNat / 16 % 256 ∧ w.toNat / 16 % 256 ≤ 0xF3) → (decode w).kind = (.bType, .bne))) ∧
    (w.toNat / 4096 = 0x0 → (decode w).kind = (.special, .nop)) ∧
    (w.toNat / 4096 = 0x1 → (decode w).kind = (.rType, .add)) ∧
    (w.toNat / 4096 = 0x2 → (decode w).kind = (.iType, .addi)) ∧
    (w.toNat / 4096 = 0x3 → (decode w).kind = (.rType, .sub)) ∧
    (w.toNat / 4096 = 0x4 → (decode w).kind = (.rType, .and)) ∧
    (w.toNat / 4096 = 0x5 → (decode w).kind = (.rType, .or)) ∧
    (w.toNat / 4096 = 0x6 → (decode w).kind = (.rType, .xor)) ∧
    (w.toNat / 4096 = 0x7 → (decode w).kind = (.rType, .not)) ∧
    (w.toNat / 4096 = 0x8 → (decode w).kind = (.rType, .shl)) ∧
    (w.toNat / 4096 = 0x9 → (decode w).kind = (.rType, .shr)) ∧
    (w.toNat / 4096 = 0xA → (decode w).kind = (.mType, .load)) ∧
    (w.toNat / 4096 = 0xB → (decode w).kind = (.mType, .store)) ∧
    (w.toNat / 4096 = 0xC → (decode w).kind = (.iType, .loadi)) ∧
    (w.toNat / 4096 = 0xD → (decode w).kind = (.jType, .jmp)) ∧
    (w.toNat / 4096 = 0xE → (decode w).kind = (.bType, .beq)) ∧
    ((decode w).format = .extended ↔ 0xFF00 ≤ w.toNat ∧ w.toNat ≤ 0xFF3F)) ∧
  (decode 0xF3FD).kind = (.bType, .bne)

/-- The six fields are the same slices of every word, whatever its format (R61); and so is the `opcode` member of the
record, the top nibble of every word, Special and Extended included, by decision D17 (R67; log entry 15, a DESIGN
CHOICE). -/
def Obligations.DecodedFieldsAreSlices : Prop :=
  ∀ w : Word,
    (decode w).opcode.toNat = w.toNat / 0x1000 ∧
    (decode w).rd.val = w.toNat / 0x100 % 0x10 ∧
    (decode w).rs.val = w.toNat / 0x10 % 0x10 ∧
    (decode w).rt.val = w.toNat % 0x10 ∧
    (decode w).imm8.toNat = w.toNat % 0x100 ∧
    (decode w).offset.toNat = w.toNat % 0x10 ∧
    (decode w).addr12.toNat = w.toNat % 0x1000

/-- R66: every word decodes to an instruction of the decoded mnemonic, and never to UNKNOWN. -/
def Obligations.NoWordDecodesToUnknown : Prop :=
  ∀ w : Word, (decode w).mnemonic ≠ .unknown ∧
    ∃ i : Instr, decodeWord w = some i ∧ i.mnemonic = (decode w).mnemonic

/-- The decoder agrees with spec/opcode_table.json scanned from the top, the first row that fits winning. -/
def Obligations.FirstFittingTableRowIsDecoded : Prop :=
  ∀ w : Word, firstFittingRow w = some (decode w).mnemonic

/-- R70: BNE on register 15 is encodable with `imm8` 0x40 to 0xFE and no other; its other words are HALT and the
Extended family; BNE on a lower register and every other instruction lose no encoding. -/
def Obligations.BneOnRegisterFifteenLosesEncodings : Prop :=
  (∀ (rd : Reg) (imm8 : BitVec 8),
    (∃ w, decodeWord w = some (.bne rd imm8)) ↔ (rd.val < 15 ∨ (0x40 ≤ imm8.toNat ∧ imm8.toNat ≤ 0xFE))) ∧
  (∀ imm8 : BitVec 8, imm8.toNat < 0x40 →
    (decode (encode (.bne 15 imm8))).mnemonic ∈ [Mnemonic.call, .ret, .push, .pop]) ∧
  decodeWord (encode (.bne 15 0xFF)) = some .halt ∧
  (∀ i : Instr, i.mnemonic ≠ .bne → ∃ w, decodeWord w = some i)

/-- The nine encodings of the source's two programs (spec/95_test_vectors.md S5 and S6), written out, its 0x0000 (S7), and
words next to the borders of the Extended family. -/
def Obligations.WrittenOutWordsDecode : Prop :=
  decodeWord 0xC105 = some (.loadi 1 0x05) ∧ decodeWord 0xC203 = some (.loadi 2 0x03) ∧
  decodeWord 0x1312 = some (.add 3 1 2) ∧ decodeWord 0xFFFF = some .halt ∧ decodeWord 0xC100 = some (.loadi 1 0x00) ∧
  decodeWord 0xC20A = some (.loadi 2 0x0A) ∧ decodeWord 0x2101 = some (.addi 1 0x01) ∧
  decodeWord 0x3321 = some (.sub 3 2 1) ∧ decodeWord 0xF3FD = some (.bne 3 0xFD) ∧
  decodeWord 0x0000 = some (.nop 0) ∧ decodeWord 0xFF3F = some (.pop 0xF) ∧
  decodeWord 0xFF40 = some (.bne 15 0x40) ∧ decodeWord 0xFFFE = some (.bne 15 0xFE)

/-- R60: an instruction is one word, its low byte first; bytes after the word are left alone, and fewer than two bytes
are refused by name. -/
def Obligations.InstructionIsTwoBytesLowFirst : Prop :=
  (∀ (lo hi : Byte) (rest : List Byte), ∃ i : Instr,
    decodeBytes (lo :: hi :: rest) = .ok (i, rest) ∧
    decodeWord (BitVec.ofNat 16 (lo.toNat + 256 * hi.toNat)) = some i) ∧
  (∀ b : Byte, decodeBytes [b] = .error .truncated) ∧ decodeBytes [] = .error .truncated

/-! ## The step -/

/-- A step runs the decoded instruction: when the two bytes at `pc` decode to `i`, a running machine's step is `exec i`
at the state with `pc` advanced by 2, and one cycle more (R92, R93, R94). -/
def Obligations.StepRunsTheInstructionAtPc : Prop :=
  ∀ (s : State) (i : Instr), s.halted = false → s.pc ≠ 0xFFFF →
    decodeBytes [s.mem.read s.pc.toNat, s.mem.read (s.pc.toNat + 1)] = .ok (i, []) →
    step s = countCycle (exec i { s with pc := s.pc + 2 })

/-- A running machine's step succeeds: it fetches, advances `pc` (wrapping; decision D7, log entry 5), decodes, executes
to a next state, counts one cycle (decision D11, log entry 9), in every state (R92, R93, R102). -/
def Obligations.RunningStepSucceeds : Prop :=
  ∀ s : State, s.halted = false → ∃ (i : Instr) (t : State),
    decodeWord (s.mem.fetch s.pc) = some i ∧ exec i { s with pc := s.pc + 2 } = .next t ∧
    step s = .next { t with cycles := t.cycles + 1 }

/-- R91: a step of a halted machine fails with `Halted` and changes no state. -/
def Obligations.HaltedStepFailsAndChangesNothing : Prop :=
  ∀ (image : Memory) (s : State), s.halted = true →
    step s = .fault .halted ∧ perform image .step s = (s, .failed .halted)

/-- The one failure of a step is `Halted`, on a halted machine; no step is refused and none is an `InvalidOpcode`
(R98, R90, R156). -/
def Obligations.StepFailsOnlyWhenHalted : Prop :=
  ∀ s : State, (∀ r, step s ≠ .refused r) ∧ (∀ f, step s = .fault f ↔ s.halted = true ∧ f = .halted)

/-- The out-of-bounds fetch halts the machine and leaves `pc = 0x0001`, whatever memory holds (R44, R93; the wrapped `pc`
is decision D7, log entry 5). -/
def Obligations.OutOfBoundsFetchHalts : Prop :=
  ∀ s : State, s.pc = 0xFFFF → s.halted = false →
    step s = .next { s with pc := 0x0001, halted := true, cycles := s.cycles + 1 }

/-- After a step the machine is halted exactly when the fetched word was the HALT word (R90, R151). -/
def Obligations.HaltedOnlyByTheHaltWord : Prop :=
  ∀ s t : State, step s = .next t → (t.halted = true ↔ s.mem.fetch s.pc = 0xFFFF)

/-- Every completed step counts one cycle, and no operation but `step`, `run` and `reset` changes the count (R102, R182;
decisions D11 and D13, log entries 9 and 11). -/
def Obligations.CyclesCountCompletedSteps : Prop :=
  (∀ s t : State, step s = .next t → t.cycles = s.cycles + 1) ∧
  (∀ (image : Memory) (op : HostOp) (s : State), op ≠ .step → (∀ n, op ≠ .run n) → op ≠ .reset →
    (perform image op s).1.cycles = s.cycles)

/-- A step of an instruction that transfers no control leaves `pc` at the next instruction, wrapping (R15; decision D7,
log entry 5). -/
def Obligations.PcAdvancesUnlessControlTransfers : Prop :=
  ∀ (s t : State) (i : Instr), decodeWord (s.mem.fetch s.pc) = some i → transfersControl i = false →
    step s = .next t → t.pc.toNat = (s.pc.toNat + 2) % 0x10000

/-- What no instruction touches, over all instructions: the special registers, the ring and the save registers never; a
general register only as its destination; memory only by STORE, and there only the two bytes at its effective address,
none at 0xFFFF; `halted` only by HALT; `pc` only by JMP, BEQ and BNE; `sr` only by the arithmetic, logic and shift
instructions, and none of its bits that are no flag (R13, R15, R16, R19, R21, R22, R24, R25, R43, R132; which of the
flags is `FlagsChangeOnlyByTheirWriters`, their positions are decision D2, log entry 3; the wrap of the address is
decision D8, log entry 6). -/
def Obligations.InstructionsTouchOnlyWhatTheyName : Prop :=
  ∀ (i : Instr) (s t : State), exec i s = .next t →
    SameSpecial s t ∧
    (∀ r : Reg, destination i ≠ some r → t.reg r = s.reg r) ∧
    (i.mnemonic ≠ .store → SameMem s t) ∧
    (∀ rd rs offset, i = .store rd rs offset →
      (effectiveAddress (s.reg rs) offset = 0xFFFF → SameMem s t) ∧
      SameMemExcept (effectiveAddress (s.reg rs) offset).toNat s t) ∧
    (i.mnemonic ≠ .halt → t.halted = s.halted) ∧
    (transfersControl i = false → t.pc = s.pc) ∧
    (writesZeroNegative i = false → t.sr = s.sr) ∧ SameOtherSrBits s t

/-- Which flags an instruction may change, over all instructions: V never, C by ADD and ADDI only, Z and N by the
arithmetic, logic and shift instructions only, the other bits of `sr` never (R21, R22). -/
def Obligations.FlagsChangeOnlyByTheirWriters : Prop :=
  ∀ (i : Instr) (s t : State), exec i s = .next t →
    t.flags.overflow = s.flags.overflow ∧ SameOtherSrBits s t ∧
    (writesCarry i = false → t.flags.carry = s.flags.carry) ∧
    (writesZeroNegative i = false → t.sr = s.sr)

/-- A program sees the general registers, `pc`, `halted` and memory only: two states that agree on these step alike,
whatever the stack pointers, `lr`, `sr`, the ring, the save registers and the cycle count (R33, R94, R170; decision
D16, log entry 14). -/
def Obligations.ProgramCannotSeePrivilegedState : Prop :=
  ∀ s₁ s₂ t₁ : State, SameToProgram s₁ s₂ → step s₁ = .next t₁ →
    ∃ t₂, step s₂ = .next t₂ ∧ SameToProgram t₁ t₂

/-! ## Registers and memory -/

/-- R11: register 0 reads 0 in every state and a write of it changes nothing. -/
def Obligations.RegisterZeroIsConstant : Prop :=
  ∀ (s : State) (v : Word), s.reg 0 = 0 ∧ s.setReg 0 v = s ∧ s.readGp 0 = 0 ∧ s.writeGp 0 v = s

/-- R12: `read_gp` and `write_gp` at every index. -/
def Obligations.RegisterFileAccess : Prop :=
  ∀ (s : State) (i : Nat) (v : Word),
    (i = 0 → s.readGp i = 0 ∧ s.writeGp i v = s) ∧
    (16 ≤ i → s.readGp i = 0 ∧ s.writeGp i v = s) ∧
    (1 ≤ i → i ≤ 15 → (s.writeGp i v).readGp i = v ∧
      (∀ j, j ≠ i → (s.writeGp i v).readGp j = s.readGp j) ∧
      s.writeGp i v = { s with x := (s.writeGp i v).x })

/-- R42: `MemRead`, little-endian; 0 at 0xFFFF. -/
def Obligations.MemReadIsLittleEndianWithinBounds : Prop :=
  ∀ (m : Memory) (a : Word),
    (a = 0xFFFF → m.readWord a = 0) ∧
    (a ≠ 0xFFFF → (m.readWord a).toNat = (m.read a.toNat).toNat + 256 * (m.read (a.toNat + 1)).toNat)

/-- R43: `MemWrite`, little-endian; nothing at 0xFFFF; no other byte changes. -/
def Obligations.MemWriteIsLittleEndianWithinBounds : Prop :=
  ∀ (m : Memory) (a v : Word),
    (a = 0xFFFF → m.writeWord a v = m) ∧
    (a ≠ 0xFFFF →
      ((m.writeWord a v).read a.toNat).toNat = v.toNat % 256 ∧
      ((m.writeWord a v).read (a.toNat + 1)).toNat = v.toNat / 256 ∧
      ∀ b : Nat, b ≠ a.toNat → b ≠ a.toNat + 1 → (m.writeWord a v).read b = m.read b)

/-- R44: `Fetch` is `MemRead`, and the HALT word at 0xFFFF whatever the byte there. -/
def Obligations.FetchIsMemReadOrHalt : Prop :=
  ∀ (m : Memory) (a : Word), (a = 0xFFFF → m.fetch a = 0xFFFF) ∧ (a ≠ 0xFFFF → m.fetch a = m.readWord a)

/-- Self-modifying code: a STORE over the next instruction's bytes is what the next step fetches (R53, decision D21, log
entry 19; R56). -/
def Obligations.StoreIsSeenByTheNextFetch : Prop :=
  ∀ (s t : State) (rd rs : Reg) (offset : BitVec 4),
    decodeWord (s.mem.fetch s.pc) = some (.store rd rs offset) →
    effectiveAddress (s.reg rs) offset = s.pc + 2 → s.pc + 2 ≠ 0xFFFF →
    step s = .next t → t.pc = s.pc + 2 ∧ t.mem.fetch t.pc = s.reg rd

/-- `load_program` places word `i` at `base + 2 i`, low byte first, while both bytes are in bounds; every other byte and
every other part of the state is unchanged (R55, R99; the truncation by whole words is decision D19, log entry 17). -/
def Obligations.LoadProgramPlacesWords : Prop :=
  ∀ (image : Memory) (s : State) (words : List Word) (base : Nat),
    perform image (.loadProgram words base) s =
      ({ s with mem := (perform image (.loadProgram words base) s).1.mem }, .done) ∧
    (∀ (i : Nat) (w : Word), words[i]? = some w → base + 2 * i + 1 ≤ 0xFFFF →
      ((perform image (.loadProgram words base) s).1.mem.read (base + 2 * i)).toNat = w.toNat % 256 ∧
      ((perform image (.loadProgram words base) s).1.mem.read (base + 2 * i + 1)).toNat = w.toNat / 256) ∧
    (∀ a : Nat, (∀ i < words.length, base + 2 * i + 1 ≤ 0xFFFF → a ≠ base + 2 * i ∧ a ≠ base + 2 * i + 1) →
      (perform image (.loadProgram words base) s).1.mem.read a = s.mem.read a)

/-! ## The instructions. The state `s` is the one after the fetch stage: its `pc` is advanced already (R93). -/

/-- ADD (R110), with register 0 as destination too: the result is discarded and the flags are still written from the sum
(decision D10, log entry 8); Z and N read as decision D23 says (log entry 21). -/
def Obligations.AddResultFlagsFrame : Prop :=
  ∀ (rd rs rt : Reg) (s : State), ∃ t, exec (.add rd rs rt) s = .next t ∧
    WritesReg rd (BitVec.ofNat 16 ((s.reg rs).toNat + (s.reg rt).toNat)) s t ∧
    WritesZNC ((s.reg rs).toNat + (s.reg rt).toNat) s t ∧ SameElsewhere s t ∧
    (encode (.add rd rs rt)).toNat = 0x1000 + rd.val * 0x100 + rs.val * 0x10 + rt.val

/-- ADDI (R111): the immediate is zero-extended; flags as for ADD (log entries 8 and 21). -/
def Obligations.AddiResultFlagsFrame : Prop :=
  ∀ (rd : Reg) (imm8 : BitVec 8) (s : State), ∃ t, exec (.addi rd imm8) s = .next t ∧
    WritesReg rd (BitVec.ofNat 16 ((s.reg rd).toNat + imm8.toNat)) s t ∧
    WritesZNC ((s.reg rd).toNat + imm8.toNat) s t ∧ SameElsewhere s t ∧
    (encode (.addi rd imm8)).toNat = 0x2000 + rd.val * 0x100 + imm8.toNat

/-- SUB (R112): wrapping, no borrow recorded; Z and N only (log entries 8 and 21). -/
def Obligations.SubResultFlagsFrame : Prop :=
  ∀ (rd rs rt : Reg) (s : State), ∃ t, exec (.sub rd rs rt) s = .next t ∧
    WritesReg rd (BitVec.ofNat 16 ((s.reg rs).toNat + 0x10000 - (s.reg rt).toNat)) s t ∧
    WritesZN (BitVec.ofNat 16 ((s.reg rs).toNat + 0x10000 - (s.reg rt).toNat)) s t ∧ SameElsewhere s t ∧
    (encode (.sub rd rs rt)).toNat = 0x3000 + rd.val * 0x100 + rs.val * 0x10 + rt.val

/-- AND, OR, XOR (R120 to R122): bitwise, Z and N only (log entries 8 and 21). -/
def Obligations.BitwiseResultFlagsFrame : Prop :=
  ∀ (rd rs rt : Reg) (s : State),
    (∃ t, exec (.and rd rs rt) s = .next t ∧ WritesReg rd (s.reg rs &&& s.reg rt) s t ∧
      WritesZN (s.reg rs &&& s.reg rt) s t ∧ SameElsewhere s t) ∧
    (∃ t, exec (.or rd rs rt) s = .next t ∧ WritesReg rd (s.reg rs ||| s.reg rt) s t ∧
      WritesZN (s.reg rs ||| s.reg rt) s t ∧ SameElsewhere s t) ∧
    (∃ t, exec (.xor rd rs rt) s = .next t ∧ WritesReg rd (s.reg rs ^^^ s.reg rt) s t ∧
      WritesZN (s.reg rs ^^^ s.reg rt) s t ∧ SameElsewhere s t) ∧
    (encode (.and rd rs rt)).toNat = 0x4000 + rd.val * 0x100 + rs.val * 0x10 + rt.val ∧
    (encode (.or rd rs rt)).toNat = 0x5000 + rd.val * 0x100 + rs.val * 0x10 + rt.val ∧
    (encode (.xor rd rs rt)).toNat = 0x6000 + rd.val * 0x100 + rs.val * 0x10 + rt.val

/-- NOT (R123): the complement of `rs`, 0xFFFF minus it, whatever the ignored bits; Z and N only (log entries 8, 21 and
23). -/
def Obligations.NotResultFlagsFrame : Prop :=
  ∀ (rd rs : Reg) (ign : BitVec 4) (s : State), ∃ t, exec (.not rd rs ign) s = .next t ∧
    WritesReg rd (BitVec.ofNat 16 (0xFFFF - (s.reg rs).toNat)) s t ∧
    WritesZN (BitVec.ofNat 16 (0xFFFF - (s.reg rs).toNat)) s t ∧ SameElsewhere s t ∧
    (encode (.not rd rs ign)).toNat = 0x7000 + rd.val * 0x100 + rs.val * 0x10 + ign.toNat

/-- SHL and SHR (R124, R125): by the low four bits of the value of register `rt` (decision D9, log entry 7), logical,
bits shifted out lost; Z and N only (log entries 8 and 21). -/
def Obligations.ShiftResultFlagsFrame : Prop :=
  ∀ (rd rs rt : Reg) (s : State),
    (∃ t, exec (.shl rd rs rt) s = .next t ∧
      WritesReg rd (BitVec.ofNat 16 ((s.reg rs).toNat * 2 ^ ((s.reg rt).toNat % 16))) s t ∧
      WritesZN (BitVec.ofNat 16 ((s.reg rs).toNat * 2 ^ ((s.reg rt).toNat % 16))) s t ∧ SameElsewhere s t) ∧
    (∃ t, exec (.shr rd rs rt) s = .next t ∧
      WritesReg rd (BitVec.ofNat 16 ((s.reg rs).toNat / 2 ^ ((s.reg rt).toNat % 16))) s t ∧
      WritesZN (BitVec.ofNat 16 ((s.reg rs).toNat / 2 ^ ((s.reg rt).toNat % 16))) s t ∧ SameElsewhere s t) ∧
    (encode (.shl rd rs rt)).toNat = 0x8000 + rd.val * 0x100 + rs.val * 0x10 + rt.val ∧
    (encode (.shr rd rs rt)).toNat = 0x9000 + rd.val * 0x100 + rs.val * 0x10 + rt.val

/-- LOAD (R130, R131): the word at `(x[rs] + 2 * offset) mod 2^16` (the wrap is decision D8, log entry 6), 0 from 0xFFFF;
no flag. -/
def Obligations.LoadResultFrame : Prop :=
  ∀ (rd rs : Reg) (offset : BitVec 4) (s : State),
    (effectiveAddress (s.reg rs) offset).toNat = ((s.reg rs).toNat + 2 * offset.toNat) % 0x10000 ∧
    (∃ t, exec (.load rd rs offset) s = .next t ∧
      WritesReg rd (s.mem.readWord (effectiveAddress (s.reg rs) offset)) s t ∧
      t.sr = s.sr ∧ SameElsewhere s t) ∧
    (encode (.load rd rs offset)).toNat = 0xA000 + rd.val * 0x100 + rs.val * 0x10 + offset.toNat

/-- STORE (R130, R132): the bytes of register `rd` at `(x[rs] + 2 * offset) mod 2^16` (the wrap is decision D8, log entry
6), low byte first; nothing at 0xFFFF; no register, no flag, no other byte. -/
def Obligations.StoreResultFrame : Prop :=
  ∀ (rd rs : Reg) (offset : BitVec 4) (s : State) (ea : Word), effectiveAddress (s.reg rs) offset = ea →
    ea.toNat = ((s.reg rs).toNat + 2 * offset.toNat) % 0x10000 ∧
    (∃ t, exec (.store rd rs offset) s = .next t ∧
      (ea = 0xFFFF → SameMem s t) ∧
      (ea ≠ 0xFFFF →
        (t.mem.read ea.toNat).toNat = (s.reg rd).toNat % 256 ∧
        (t.mem.read (ea.toNat + 1)).toNat = (s.reg rd).toNat / 256 ∧
        SameMemExcept ea.toNat s t) ∧
      SameRegs s t ∧ t.sr = s.sr ∧ t.pc = s.pc ∧ t.halted = s.halted ∧ SameSpecial s t) ∧
    (encode (.store rd rs offset)).toNat = 0xB000 + rd.val * 0x100 + rs.val * 0x10 + offset.toNat

/-- R133: LOADI loads the sign-extended immediate, writes no flag and reads no memory. -/
def Obligations.LoadiResultFrame : Prop :=
  ∀ (rd : Reg) (imm8 : BitVec 8) (s : State), ∃ t, exec (.loadi rd imm8) s = .next t ∧
    WritesReg rd (BitVec.ofNat 16 (if imm8.toNat < 0x80 then imm8.toNat else 0xFF00 + imm8.toNat)) s t ∧
    t.sr = s.sr ∧ SameElsewhere s t ∧
    (encode (.loadi rd imm8)).toNat = 0xC000 + rd.val * 0x100 + imm8.toNat

/-- R140: JMP sets `pc` to the zero-extended twelve bits and changes nothing else, `lr` included. -/
def Obligations.JmpTargetFrame : Prop :=
  ∀ (addr12 : BitVec 12) (s : State),
    exec (.jmp addr12) s = .next { s with pc := BitVec.ofNat 16 addr12.toNat } ∧
    (encode (.jmp addr12)).toNat = 0xD000 + addr12.toNat

/-- R141, R142, R143: BEQ branches when the register is zero, BNE when it is not, to the advanced `pc` plus twice the signed
immediate, wrapping; the test is on the register, no flag is read or written, and nothing but `pc` changes. Every BEQ is encodable;
BNE on register 15 with `imm8` 0x40 to 0xFE only. -/
def Obligations.BranchTargetFrame : Prop :=
  ∀ (rd : Reg) (imm8 : BitVec 8) (s : State),
    ∃ target : Word, (target.toNat : Int) = ((s.pc.toNat : Int) + 2 * imm8.toInt) % 0x10000 ∧
      exec (.beq rd imm8) s = .next { s with pc := if s.reg rd = 0 then target else s.pc } ∧
      exec (.bne rd imm8) s = .next { s with pc := if s.reg rd = 0 then s.pc else target } ∧
      (encode (.beq rd imm8)).toNat = 0xE000 + rd.val * 0x100 + imm8.toNat ∧
      (encode (.bne rd imm8)).toNat = 0xF000 + rd.val * 0x100 + imm8.toNat ∧
      decodeWord (encode (.beq rd imm8)) = some (.beq rd imm8) ∧
      (decodeWord (encode (.bne rd imm8)) = some (.bne rd imm8) ↔
        (rd.val < 15 ∨ (0x40 ≤ imm8.toNat ∧ imm8.toNat ≤ 0xFE)))

/-- NOP (R150; decision D6, log entry 20): nothing changes, whatever its twelve ignored bits. -/
def Obligations.NopChangesNothing : Prop :=
  ∀ (ign : BitVec 12) (s : State), exec (.nop ign) s = .next s ∧ (encode (.nop ign)).toNat = ign.toNat

/-- HALT (R151): `halted` is set and nothing else changes; the step that fetches it, from memory or out of bounds, succeeds
with `pc` advanced (decision D7, log entry 5) and one cycle more (decision D11, log entry 9), and the step after it fails with `Halted`. -/
def Obligations.HaltStopsTheEngine : Prop :=
  (∀ s : State, exec .halt s = .next { s with halted := true }) ∧
  (encode .halt).toNat = 0xFFFF ∧
  (∀ s : State, s.halted = false → s.mem.fetch s.pc = 0xFFFF → ∃ t, step s = .next t ∧
    t = { s with pc := s.pc + 2, halted := true, cycles := s.cycles + 1 } ∧ step t = .fault .halted)

/-- R152 to R155: CALL, RET, PUSH and POP change nothing, and their steps change `pc` and `cycles` alone, whatever the four
ignored bits (that `pc` wraps is decision D7, log entry 5; that each step counts one cycle is decision D11, log entry 9). -/
def Obligations.ExtendedInstructionsAreNoOps : Prop :=
  (∀ (ign : BitVec 4) (s : State),
    exec (.call ign) s = .next s ∧ exec (.ret ign) s = .next s ∧
    exec (.push ign) s = .next s ∧ exec (.pop ign) s = .next s ∧
    (encode (.call ign)).toNat = 0xFF00 + ign.toNat ∧ (encode (.ret ign)).toNat = 0xFF10 + ign.toNat ∧
    (encode (.push ign)).toNat = 0xFF20 + ign.toNat ∧ (encode (.pop ign)).toNat = 0xFF30 + ign.toNat) ∧
  (∀ s : State, s.halted = false → 0xFF00 ≤ (s.mem.fetch s.pc).toNat → (s.mem.fetch s.pc).toNat ≤ 0xFF3F →
    step s = .next { s with pc := s.pc + 2, cycles := s.cycles + 1 })

/-! ## Exceptions and privilege -/

/-- R163: an exception entry, from each ring: what it saves, which bank it writes, where it goes, and that all else is
unchanged; it never fails. From the Kernel ring, where `sp` is the kernel bank, only the save slots and `pc` change. -/
def Obligations.ExceptionEntrySavesAndGoesToHandler : Prop :=
  ∀ (image : Memory) (s : State),
    perform image .raisePrivilegeOnException s = (s.raisePrivilegeOnException, .done) ∧
    (s.ring = .kernel → s.raisePrivilegeOnException =
      { s with savedPc := s.pc, savedSr := s.sr, sp := s.ksp, pc := 0x0010 }) ∧
    (s.ring = .supervisor → s.raisePrivilegeOnException =
      { s with savedPc := s.pc, savedSr := s.sr, ssp := s.sp, ring := .kernel, sp := s.ksp, pc := 0x0010 }) ∧
    (s.ring = .user → s.raisePrivilegeOnException =
      { s with savedPc := s.pc, savedSr := s.sr, usp := s.sp, ring := .kernel, sp := s.ksp, pc := 0x0010 }) ∧
    (s.ring = .kernel → s.sp = s.ksp →
      s.raisePrivilegeOnException = { s with savedPc := s.pc, savedSr := s.sr, pc := 0x0010 })

/-- A second entry while the handler runs loses the first saved context: after an entry and one step of the handler, it
saves the handler's own `pc` and `sr`, goes to the handler's first instruction, and leaves all else, the ring, the stack
pointer and the banks among it; delivered at once, it saves the handler's address (R167; that entries come between steps
is decision D13, log entry 11). -/
def Obligations.NestedEntryLosesTheFirstContext : Prop :=
  (∀ s t : State, step s.raisePrivilegeOnException = .next t →
    t.raisePrivilegeOnException = { t with savedPc := t.pc, savedSr := t.sr, pc := 0x0010 }) ∧
  (∀ s : State, s.raisePrivilegeOnException.raisePrivilegeOnException =
    { s.raisePrivilegeOnException with savedPc := 0x0010 })

/-- R171: `enter_kernel_mode` acts from the User ring only, and is no exception entry. -/
def Obligations.EnterKernelModeActsFromUserOnly : Prop :=
  ∀ (image : Memory) (s : State),
    perform image .enterKernelMode s = (s.enterKernelMode, .done) ∧
    (s.ring = .user → s.enterKernelMode = { s with usp := s.sp, sp := s.ksp, ring := .kernel }) ∧
    (s.ring ≠ .user → s.enterKernelMode = s)

/-- R172: `drop_privilege` banks the live stack pointer in the slot of the ring left, loads the target's, and sets the ring,
for every pair of rings, upward ones included (decision D15, log entry 13); nothing else changes, and nothing at all when the target is the current
ring and `sp` is its bank. -/
def Obligations.DropPrivilegeBanksAndLoads : Prop :=
  ∀ (image : Memory) (s : State) (target : Ring),
    perform image (.dropPrivilege target) s = (s.dropPrivilege target, .done) ∧
    (s.dropPrivilege target).ring = target ∧
    (s.dropPrivilege target).bank s.ring = s.sp ∧
    (∀ q, q ≠ s.ring → (s.dropPrivilege target).bank q = s.bank q) ∧
    (s.dropPrivilege target).sp = (if target = s.ring then s.sp else s.bank target) ∧
    s.dropPrivilege target =
      { s with
        sp   := (s.dropPrivilege target).sp
        ksp  := (s.dropPrivilege target).ksp
        ssp  := (s.dropPrivilege target).ssp
        usp  := (s.dropPrivilege target).usp
        ring := (s.dropPrivilege target).ring } ∧
    (target = s.ring → s.sp = s.bank s.ring → s.dropPrivilege target = s)

/-- Exactly one of the three mode predicates is true, the one of the ring (R174), and asking changes nothing. -/
def Obligations.ExactlyOneModePredicateIsTrue : Prop :=
  ∀ (image : Memory) (s : State),
    (s.isKernelMode = true ↔ s.ring = .kernel) ∧ (s.isSupervisorMode = true ↔ s.ring = .supervisor) ∧
    (s.isUserMode = true ↔ s.ring = .user) ∧
    ([s.isKernelMode, s.isSupervisorMode, s.isUserMode].count true = 1) ∧
    perform image .isKernelMode s = (s, .truth s.isKernelMode) ∧
    perform image .isSupervisorMode s = (s, .truth s.isSupervisorMode) ∧
    perform image .isUserMode s = (s, .truth s.isUserMode)

/-- Nothing but `reset` takes a halted machine out of the halted state, an exception entry neither, and a step still fails
(R90, R181, R182; decision D13, log entry 11). -/
def Obligations.OnlyResetLeavesHalted : Prop :=
  ∀ (image : Memory) (op : HostOp) (s : State), s.halted = true → op ≠ .reset →
    (perform image op s).1.halted = true ∧ step (perform image op s).1 = .fault .halted

/-- Which operations may write the privileged state: the stack pointers, the banks and the ring change by the three
transitions and `reset` only, the save slots by an exception entry and `reset` only, `lr` by `reset` only (R16, R17,
R19, R24, R25; that no other setter exists is decision D27, log entry 34). -/
def Obligations.PrivilegedStateWrittenByTransitionsOnly : Prop :=
  ∀ (image : Memory) (op : HostOp) (s t : State), (perform image op s).1 = t → op ≠ .reset →
    t.lr = s.lr ∧
    (op ≠ .raisePrivilegeOnException →
      t.savedPc = s.savedPc ∧ t.savedSr = s.savedSr ∧
      (op ≠ .enterKernelMode → (∀ r, op ≠ .dropPrivilege r) →
        t.sp = s.sp ∧ t.ksp = s.ksp ∧ t.ssp = s.ssp ∧ t.usp = s.usp ∧ t.ring = s.ring))

/-! ## The host -/

/-- `run(n)` takes steps until the machine is halted or the budget is spent, and replies how many: it never fails, the
state is that many steps on, the cycle counter grew by the reply, and a reply short of the budget means halted (R97;
decision D12, log entry 10). -/
def Obligations.RunStopsAtHaltOrBudget : Prop :=
  ∀ (n : Nat) (s : State), ∃ (k : Nat) (t : State),
    run n s = (t, .consumed k) ∧ k ≤ n ∧ (k < n → t.halted = true) ∧
    t.cycles = s.cycles + k ∧ stepTimes k s = .next t

/-- `lookup` (R100): the four special registers and `R0` to `RF` by name, in either case of letter (log entry 29); a name
whose capitals are none of these is not found; nothing changes. -/
def Obligations.LookupByName : Prop :=
  ∀ (image : Memory) (s : State) (name : String),
    perform image (.lookup name) s = (s, .found (s.lookup name)) ∧
    (name.toList.map Char.toUpper = ['P', 'C'] → s.lookup name = some s.pc) ∧
    (name.toList.map Char.toUpper = ['S', 'P'] → s.lookup name = some s.sp) ∧
    (name.toList.map Char.toUpper = ['L', 'R'] → s.lookup name = some s.lr) ∧
    (name.toList.map Char.toUpper = ['S', 'R'] → s.lookup name = some s.sr) ∧
    (∀ r : Reg, name.toList.map Char.toUpper = ['R', "0123456789ABCDEF".toList.getD r.val '0'] →
      s.lookup name = some (s.reg r)) ∧
    (name.toList.map Char.toUpper ∉ [['P', 'C'], ['S', 'P'], ['L', 'R'], ['S', 'R']] →
      (∀ r : Reg, name.toList.map Char.toUpper ≠ ['R', "0123456789ABCDEF".toList.getD r.val '0']) →
      s.lookup name = none)

/-- `reset` puts every field at its reset value and memory at `MEM_INIT`, whatever that is (R32, R190, R191). The five
boot defaults are the source's; every other value is decision D4 (log entry 2) or D5 (log entries 1 and 37). -/
def Obligations.ResetValues : Prop :=
  ∀ (image : Memory) (s t : State), perform image .reset s = (t, .done) →
    t.sp = 0xFFFE ∧ t.ksp = 0xFFFE ∧ t.ssp = 0xEFFE ∧ t.usp = 0xDFFE ∧ t.ring = .kernel ∧
    (∀ r : Reg, t.reg r = 0) ∧ t.pc = 0 ∧ t.lr = 0 ∧ t.sr = 0 ∧ t.savedPc = 0 ∧ t.savedSr = 0 ∧
    t.halted = false ∧ t.cycles = 0 ∧ t.mem = image

/-- R22: `to_bits` puts each flag at its position and 0 elsewhere, and `from_bits` reads it back, for all 16 combinations and
for every choice of four distinct positions; an instruction's flag update changes exactly the flags of its class (R96) and
no other bit of `sr`. -/
def Obligations.FlagUnitRoundTrip : Prop :=
  (∀ L : FlagLayout, L.Distinct → ∀ f : Flags,
    L.fromBits (L.toBits f) = f ∧
    (L.toBits f).getLsbD L.zBit.val = f.zero ∧ (L.toBits f).getLsbD L.nBit.val = f.negative ∧
    (L.toBits f).getLsbD L.cBit.val = f.carry ∧ (L.toBits f).getLsbD L.vBit.val = f.overflow ∧
    (∀ k : Fin 16, k ≠ L.zBit → k ≠ L.nBit → k ≠ L.cBit → k ≠ L.vBit → (L.toBits f).getLsbD k.val = false)) ∧
  (∀ (L : FlagLayout) (w : Word),
    L.fromBits w = { zero := w.getLsbD L.zBit.val, negative := w.getLsbD L.nBit.val,
                     carry := w.getLsbD L.cBit.val, overflow := w.getLsbD L.vBit.val }) ∧
  (∀ (i : Instr) (s t : State), exec i s = .next t →
    t.flags.overflow = s.flags.overflow ∧ SameOtherSrBits s t ∧
    (writesCarry i = false → t.flags.carry = s.flags.carry) ∧
    (writesZeroNegative i = false → t.sr = s.sr))

/-! ## Invariants -/

/-- The invariant holds at reset, for every canonical `MEM_INIT` (R32; log entries 1 and 2). -/
def Obligations.InvariantHoldsAtReset : Prop :=
  (∀ image : Memory, image.wf = true → (State.resetWith image).Inv) ∧ State.reset.Inv

/-- Every step keeps the invariant: canonical memory, live stack pointer banked, banks and `lr` constant, V and the unused
bits of `sr` clear (R18, R19, R20, R23, R40; decisions D3, D4 and D27, log entries 4, 2 and 34). -/
def Obligations.StepKeepsInvariant : Prop :=
  ∀ s t : State, s.Inv → step s = .next t → t.Inv

/-- Every operation of the host keeps the invariant, exception entries between steps among them (decision D27, log entry
34). After `reset` it rests on the reset values of `lr` and `sr` (decision D4, log entry 2), on the bits of `sr` that are
no flag (decision D3, log entry 4), and on memory going back to `MEM_INIT` (decision D5, log entry 37). -/
def Obligations.HostOperationKeepsInvariant : Prop :=
  ∀ (image : Memory) (op : HostOp) (s : State), image.wf = true → s.Inv → (perform image op s).1.Inv

/-- R18: after any schedule of host operations from reset, the live stack pointer is the bank of the ring, and the four
cells hold their reset values (decision D27, log entry 34). -/
def Obligations.ReachableStackPointersAreBanked : Prop :=
  ∀ (image : Memory) (ops : List HostOp) (t : State), performAll image ops (State.resetWith image) = t →
    t.sp = t.bank t.ring ∧ t.ksp = 0xFFFE ∧ t.ssp = 0xEFFE ∧ t.usp = 0xDFFE
end

