-- ==== Sys2Proof/Laws/Decode.lean ====
section
/-! SUPPORT. The slices of a word and the words built from fields, as arithmetic on numbers (R61, R62). -/

namespace Sys2Proof

@[simp] theorem regOfBits_val (n : BitVec 4) : (regOfBits n).val = n.toNat := rfl

@[simp] theorem bitsOfReg_toNat (r : Reg) : (bitsOfReg r).toNat = r.val := by
  have := r.isLt
  simp only [bitsOfReg, BitVec.toNat_ofNat]
  omega

@[simp] theorem regOfBits_bitsOfReg (r : Reg) : regOfBits (bitsOfReg r) = r := Fin.ext (bitsOfReg_toNat r)

@[simp] theorem bitsOfReg_regOfBits (n : BitVec 4) : bitsOfReg (regOfBits n) = n :=
  BitVec.eq_of_toNat_eq (bitsOfReg_toNat _)

theorem opcodeField_toNat (w : Word) : (opcodeField w).toNat = w.toNat / 4096 := by
  have := w.isLt
  simp only [opcodeField, BitVec.extractLsb'_toNat, Nat.shiftRight_eq_div_pow]
  omega

theorem rdField_val (w : Word) : (rdField w).val = w.toNat / 256 % 16 := by
  simp only [rdField, regOfBits_val, BitVec.extractLsb'_toNat, Nat.shiftRight_eq_div_pow]

theorem rsField_val (w : Word) : (rsField w).val = w.toNat / 16 % 16 := by
  simp only [rsField, regOfBits_val, BitVec.extractLsb'_toNat, Nat.shiftRight_eq_div_pow]

theorem rtField_val (w : Word) : (rtField w).val = w.toNat % 16 := by
  simp only [rtField, regOfBits_val, BitVec.extractLsb'_toNat, Nat.shiftRight_zero]

theorem imm8Field_toNat (w : Word) : (imm8Field w).toNat = w.toNat % 256 := by
  simp only [imm8Field, BitVec.extractLsb'_toNat, Nat.shiftRight_zero]

theorem offsetField_toNat (w : Word) : (offsetField w).toNat = w.toNat % 16 := by
  simp only [offsetField, BitVec.extractLsb'_toNat, Nat.shiftRight_zero]

theorem addr12Field_toNat (w : Word) : (addr12Field w).toNat = w.toNat % 4096 := by
  simp only [addr12Field, BitVec.extractLsb'_toNat, Nat.shiftRight_zero]

theorem extSelector_toNat (w : Word) : (extSelector w).toNat = w.toNat / 16 % 256 := by
  simp only [extSelector, BitVec.extractLsb'_toNat, Nat.shiftRight_eq_div_pow]

theorem toNat_append_eq {m n : Nat} (a : BitVec m) (b : BitVec n) :
    (a ++ b).toNat = a.toNat * 2 ^ n + b.toNat := by
  rw [BitVec.toNat_append, Nat.shiftLeft_eq, Nat.mul_comm, Nat.two_pow_add_eq_or_of_lt b.isLt]

theorem wordOfNibbles_toNat (op : BitVec 4) (rd rs : Reg) (last : BitVec 4) :
    (wordOfNibbles op rd rs last).toNat = op.toNat * 4096 + rd.val * 256 + rs.val * 16 + last.toNat := by
  simp only [wordOfNibbles, toNat_append_eq, bitsOfReg_toNat]
  omega

theorem wordOfImm_toNat (op : BitVec 4) (rd : Reg) (imm8 : BitVec 8) :
    (wordOfImm op rd imm8).toNat = op.toNat * 4096 + rd.val * 256 + imm8.toNat := by
  simp only [wordOfImm, toNat_append_eq, bitsOfReg_toNat]
  omega

theorem wordOfAddr_toNat (op : BitVec 4) (addr12 : BitVec 12) :
    (wordOfAddr op addr12).toNat = op.toNat * 4096 + addr12.toNat := by
  simp only [wordOfAddr, toNat_append_eq]
  omega

theorem wordOfExtended_toNat (fixed : BitVec 12) (ignored : BitVec 4) :
    (wordOfExtended fixed ignored).toNat = fixed.toNat * 16 + ignored.toNat := by
  simp only [wordOfExtended, toNat_append_eq]
  omega

theorem lowByte_toNat (w : Word) : (lowByte w).toNat = w.toNat % 256 := by
  simp only [lowByte, BitVec.extractLsb'_toNat, Nat.shiftRight_zero]

theorem highByte_toNat (w : Word) : (highByte w).toNat = w.toNat / 256 := by
  have := w.isLt
  simp only [highByte, BitVec.extractLsb'_toNat, Nat.shiftRight_eq_div_pow]
  omega

theorem wordOfBytes_toNat (lo hi : Byte) : (wordOfBytes lo hi).toNat = lo.toNat + 256 * hi.toNat := by
  simp only [wordOfBytes, toNat_append_eq]
  omega

@[simp] theorem wordOfBytes_low_high (w : Word) : wordOfBytes (lowByte w) (highByte w) = w := by
  apply BitVec.eq_of_toNat_eq
  rw [wordOfBytes_toNat, lowByte_toNat, highByte_toNat]
  omega

@[simp] theorem lowByte_wordOfBytes (lo hi : Byte) : lowByte (wordOfBytes lo hi) = lo := by
  apply BitVec.eq_of_toNat_eq
  have := lo.isLt
  rw [lowByte_toNat, wordOfBytes_toNat]
  omega

@[simp] theorem highByte_wordOfBytes (lo hi : Byte) : highByte (wordOfBytes lo hi) = hi := by
  apply BitVec.eq_of_toNat_eq
  have := lo.isLt
  rw [highByte_toNat, wordOfBytes_toNat]
  omega

/-- The top nibble of a word alone, as a mask of the opcode table takes it. -/
theorem and_topNibble (w : Word) : w &&& 0xF000#16 = BitVec.ofNat 16 (w.toNat / 4096 * 4096) := by
  have h : w &&& 0xF000#16 = (w >>> 12) <<< 12 := by
    ext i hi
    interval_cases i <;> simp
  rw [h]
  apply BitVec.eq_of_toNat_eq
  simp [Nat.shiftLeft_eq, Nat.shiftRight_eq_div_pow]

/-- The top twelve bits of a word alone. -/
theorem and_topTwelve (w : Word) : w &&& 0xFFF0#16 = BitVec.ofNat 16 (w.toNat / 16 * 16) := by
  have h : w &&& 0xFFF0#16 = (w >>> 4) <<< 4 := by
    ext i hi
    interval_cases i <;> simp
  rw [h]
  apply BitVec.eq_of_toNat_eq
  simp [Nat.shiftLeft_eq, Nat.shiftRight_eq_div_pow]

/-- A word is classified by its number alone: the four tests of R63 as arithmetic. -/
theorem classify_eq (w : Word) :
    classify w =
      if w.toNat = 0 then (.special, .nop)
      else if w.toNat = 0xFFFF then (.special, .halt)
      else if w.toNat / 4096 = 15 then extendedRow (extSelector w)
      else tableRow (opcodeField w) := by
  have hz : w = Config.nopWord ↔ w.toNat = 0 :=
    ⟨fun h => by rw [h]; rfl, fun h => BitVec.eq_of_toNat_eq h⟩
  have hh : w = Config.haltWord ↔ w.toNat = 0xFFFF :=
    ⟨fun h => by rw [h]; rfl, fun h => BitVec.eq_of_toNat_eq h⟩
  have ho : opcodeField w = 0xF ↔ w.toNat / 4096 = 15 := by
    rw [← opcodeField_toNat]
    exact ⟨fun h => by rw [h]; rfl, fun h => BitVec.eq_of_toNat_eq h⟩
  unfold classify
  exact if_congr hz rfl (if_congr hh rfl (if_congr ho rfl rfl))

end Sys2Proof
end

