-- ==== Sys2Proof/Laws/State.lean ====
section
/-! SUPPORT. What each field of State reads after each named update: one lemma per field per update, so that no later
proof unfolds a record update. -/

namespace Sys2Proof

/-- `Word` has the width `XLEN` names (R2). -/
theorem word_eq_xlen : Word = BitVec Config.xlen := rfl

/-- `Reg` has the count `NREG` names (R2). -/
theorem reg_eq_nreg : Reg = Fin Config.nreg := rfl

/-- An instruction takes two bytes (R60). -/
@[simp] theorem Config.instrBytes_eq : Config.instrBytes = 2 := rfl

end Sys2Proof

namespace Sys2Proof.Machine

variable (s : State)

/-- The fetch stage moves `pc` and nothing else. -/
theorem State.advancePc_eq : s.advancePc = { s with pc := s.pc + 2 } := rfl

/-! ### setPc -/

@[simp] theorem State.setPc_x (v : Word) : (s.setPc v).x = s.x := rfl
@[simp] theorem State.setPc_pc (v : Word) : (s.setPc v).pc = v := rfl
@[simp] theorem State.setPc_sp (v : Word) : (s.setPc v).sp = s.sp := rfl
@[simp] theorem State.setPc_ksp (v : Word) : (s.setPc v).ksp = s.ksp := rfl
@[simp] theorem State.setPc_ssp (v : Word) : (s.setPc v).ssp = s.ssp := rfl
@[simp] theorem State.setPc_usp (v : Word) : (s.setPc v).usp = s.usp := rfl
@[simp] theorem State.setPc_lr (v : Word) : (s.setPc v).lr = s.lr := rfl
@[simp] theorem State.setPc_sr (v : Word) : (s.setPc v).sr = s.sr := rfl
@[simp] theorem State.setPc_ring (v : Word) : (s.setPc v).ring = s.ring := rfl
@[simp] theorem State.setPc_savedPc (v : Word) : (s.setPc v).savedPc = s.savedPc := rfl
@[simp] theorem State.setPc_savedSr (v : Word) : (s.setPc v).savedSr = s.savedSr := rfl
@[simp] theorem State.setPc_halted (v : Word) : (s.setPc v).halted = s.halted := rfl
@[simp] theorem State.setPc_cycles (v : Word) : (s.setPc v).cycles = s.cycles := rfl
@[simp] theorem State.setPc_mem (v : Word) : (s.setPc v).mem = s.mem := rfl
@[simp] theorem State.setPc_readGp (v : Word) (i : Nat) : (s.setPc v).readGp i = s.readGp i := rfl
@[simp] theorem State.setPc_reg (v : Word) (i : Reg) : (s.setPc v).reg i = s.reg i := rfl
@[simp] theorem State.setPc_flags (v : Word) : (s.setPc v).flags = s.flags := rfl
@[simp] theorem State.setPc_bank (v : Word) (q : Ring) : (s.setPc v).bank q = s.bank q := by cases q <;> rfl

/-! ### setSp -/

@[simp] theorem State.setSp_x (v : Word) : (s.setSp v).x = s.x := rfl
@[simp] theorem State.setSp_pc (v : Word) : (s.setSp v).pc = s.pc := rfl
@[simp] theorem State.setSp_sp (v : Word) : (s.setSp v).sp = v := rfl
@[simp] theorem State.setSp_ksp (v : Word) : (s.setSp v).ksp = s.ksp := rfl
@[simp] theorem State.setSp_ssp (v : Word) : (s.setSp v).ssp = s.ssp := rfl
@[simp] theorem State.setSp_usp (v : Word) : (s.setSp v).usp = s.usp := rfl
@[simp] theorem State.setSp_lr (v : Word) : (s.setSp v).lr = s.lr := rfl
@[simp] theorem State.setSp_sr (v : Word) : (s.setSp v).sr = s.sr := rfl
@[simp] theorem State.setSp_ring (v : Word) : (s.setSp v).ring = s.ring := rfl
@[simp] theorem State.setSp_savedPc (v : Word) : (s.setSp v).savedPc = s.savedPc := rfl
@[simp] theorem State.setSp_savedSr (v : Word) : (s.setSp v).savedSr = s.savedSr := rfl
@[simp] theorem State.setSp_halted (v : Word) : (s.setSp v).halted = s.halted := rfl
@[simp] theorem State.setSp_cycles (v : Word) : (s.setSp v).cycles = s.cycles := rfl
@[simp] theorem State.setSp_mem (v : Word) : (s.setSp v).mem = s.mem := rfl
@[simp] theorem State.setSp_readGp (v : Word) (i : Nat) : (s.setSp v).readGp i = s.readGp i := rfl
@[simp] theorem State.setSp_reg (v : Word) (i : Reg) : (s.setSp v).reg i = s.reg i := rfl
@[simp] theorem State.setSp_flags (v : Word) : (s.setSp v).flags = s.flags := rfl
@[simp] theorem State.setSp_bank (v : Word) (q : Ring) : (s.setSp v).bank q = s.bank q := by cases q <;> rfl

/-! ### setSr -/

@[simp] theorem State.setSr_x (v : Word) : (s.setSr v).x = s.x := rfl
@[simp] theorem State.setSr_pc (v : Word) : (s.setSr v).pc = s.pc := rfl
@[simp] theorem State.setSr_sp (v : Word) : (s.setSr v).sp = s.sp := rfl
@[simp] theorem State.setSr_ksp (v : Word) : (s.setSr v).ksp = s.ksp := rfl
@[simp] theorem State.setSr_ssp (v : Word) : (s.setSr v).ssp = s.ssp := rfl
@[simp] theorem State.setSr_usp (v : Word) : (s.setSr v).usp = s.usp := rfl
@[simp] theorem State.setSr_lr (v : Word) : (s.setSr v).lr = s.lr := rfl
@[simp] theorem State.setSr_sr (v : Word) : (s.setSr v).sr = v := rfl
@[simp] theorem State.setSr_ring (v : Word) : (s.setSr v).ring = s.ring := rfl
@[simp] theorem State.setSr_savedPc (v : Word) : (s.setSr v).savedPc = s.savedPc := rfl
@[simp] theorem State.setSr_savedSr (v : Word) : (s.setSr v).savedSr = s.savedSr := rfl
@[simp] theorem State.setSr_halted (v : Word) : (s.setSr v).halted = s.halted := rfl
@[simp] theorem State.setSr_cycles (v : Word) : (s.setSr v).cycles = s.cycles := rfl
@[simp] theorem State.setSr_mem (v : Word) : (s.setSr v).mem = s.mem := rfl
@[simp] theorem State.setSr_readGp (v : Word) (i : Nat) : (s.setSr v).readGp i = s.readGp i := rfl
@[simp] theorem State.setSr_reg (v : Word) (i : Reg) : (s.setSr v).reg i = s.reg i := rfl
@[simp] theorem State.setSr_bank (v : Word) (q : Ring) : (s.setSr v).bank q = s.bank q := by cases q <;> rfl

/-! ### setRing -/

@[simp] theorem State.setRing_x (r : Ring) : (s.setRing r).x = s.x := rfl
@[simp] theorem State.setRing_pc (r : Ring) : (s.setRing r).pc = s.pc := rfl
@[simp] theorem State.setRing_sp (r : Ring) : (s.setRing r).sp = s.sp := rfl
@[simp] theorem State.setRing_ksp (r : Ring) : (s.setRing r).ksp = s.ksp := rfl
@[simp] theorem State.setRing_ssp (r : Ring) : (s.setRing r).ssp = s.ssp := rfl
@[simp] theorem State.setRing_usp (r : Ring) : (s.setRing r).usp = s.usp := rfl
@[simp] theorem State.setRing_lr (r : Ring) : (s.setRing r).lr = s.lr := rfl
@[simp] theorem State.setRing_sr (r : Ring) : (s.setRing r).sr = s.sr := rfl
@[simp] theorem State.setRing_ring (r : Ring) : (s.setRing r).ring = r := rfl
@[simp] theorem State.setRing_savedPc (r : Ring) : (s.setRing r).savedPc = s.savedPc := rfl
@[simp] theorem State.setRing_savedSr (r : Ring) : (s.setRing r).savedSr = s.savedSr := rfl
@[simp] theorem State.setRing_halted (r : Ring) : (s.setRing r).halted = s.halted := rfl
@[simp] theorem State.setRing_cycles (r : Ring) : (s.setRing r).cycles = s.cycles := rfl
@[simp] theorem State.setRing_mem (r : Ring) : (s.setRing r).mem = s.mem := rfl
@[simp] theorem State.setRing_readGp (r : Ring) (i : Nat) : (s.setRing r).readGp i = s.readGp i := rfl
@[simp] theorem State.setRing_reg (r : Ring) (i : Reg) : (s.setRing r).reg i = s.reg i := rfl
@[simp] theorem State.setRing_flags (r : Ring) : (s.setRing r).flags = s.flags := rfl
@[simp] theorem State.setRing_bank (r : Ring) (q : Ring) : (s.setRing r).bank q = s.bank q := by cases q <;> rfl

/-! ### setSavedPc -/

@[simp] theorem State.setSavedPc_x (v : Word) : (s.setSavedPc v).x = s.x := rfl
@[simp] theorem State.setSavedPc_pc (v : Word) : (s.setSavedPc v).pc = s.pc := rfl
@[simp] theorem State.setSavedPc_sp (v : Word) : (s.setSavedPc v).sp = s.sp := rfl
@[simp] theorem State.setSavedPc_ksp (v : Word) : (s.setSavedPc v).ksp = s.ksp := rfl
@[simp] theorem State.setSavedPc_ssp (v : Word) : (s.setSavedPc v).ssp = s.ssp := rfl
@[simp] theorem State.setSavedPc_usp (v : Word) : (s.setSavedPc v).usp = s.usp := rfl
@[simp] theorem State.setSavedPc_lr (v : Word) : (s.setSavedPc v).lr = s.lr := rfl
@[simp] theorem State.setSavedPc_sr (v : Word) : (s.setSavedPc v).sr = s.sr := rfl
@[simp] theorem State.setSavedPc_ring (v : Word) : (s.setSavedPc v).ring = s.ring := rfl
@[simp] theorem State.setSavedPc_savedPc (v : Word) : (s.setSavedPc v).savedPc = v := rfl
@[simp] theorem State.setSavedPc_savedSr (v : Word) : (s.setSavedPc v).savedSr = s.savedSr := rfl
@[simp] theorem State.setSavedPc_halted (v : Word) : (s.setSavedPc v).halted = s.halted := rfl
@[simp] theorem State.setSavedPc_cycles (v : Word) : (s.setSavedPc v).cycles = s.cycles := rfl
@[simp] theorem State.setSavedPc_mem (v : Word) : (s.setSavedPc v).mem = s.mem := rfl
@[simp] theorem State.setSavedPc_readGp (v : Word) (i : Nat) : (s.setSavedPc v).readGp i = s.readGp i := rfl
@[simp] theorem State.setSavedPc_reg (v : Word) (i : Reg) : (s.setSavedPc v).reg i = s.reg i := rfl
@[simp] theorem State.setSavedPc_flags (v : Word) : (s.setSavedPc v).flags = s.flags := rfl
@[simp] theorem State.setSavedPc_bank (v : Word) (q : Ring) : (s.setSavedPc v).bank q = s.bank q := by cases q <;> rfl

/-! ### setSavedSr -/

@[simp] theorem State.setSavedSr_x (v : Word) : (s.setSavedSr v).x = s.x := rfl
@[simp] theorem State.setSavedSr_pc (v : Word) : (s.setSavedSr v).pc = s.pc := rfl
@[simp] theorem State.setSavedSr_sp (v : Word) : (s.setSavedSr v).sp = s.sp := rfl
@[simp] theorem State.setSavedSr_ksp (v : Word) : (s.setSavedSr v).ksp = s.ksp := rfl
@[simp] theorem State.setSavedSr_ssp (v : Word) : (s.setSavedSr v).ssp = s.ssp := rfl
@[simp] theorem State.setSavedSr_usp (v : Word) : (s.setSavedSr v).usp = s.usp := rfl
@[simp] theorem State.setSavedSr_lr (v : Word) : (s.setSavedSr v).lr = s.lr := rfl
@[simp] theorem State.setSavedSr_sr (v : Word) : (s.setSavedSr v).sr = s.sr := rfl
@[simp] theorem State.setSavedSr_ring (v : Word) : (s.setSavedSr v).ring = s.ring := rfl
@[simp] theorem State.setSavedSr_savedPc (v : Word) : (s.setSavedSr v).savedPc = s.savedPc := rfl
@[simp] theorem State.setSavedSr_savedSr (v : Word) : (s.setSavedSr v).savedSr = v := rfl
@[simp] theorem State.setSavedSr_halted (v : Word) : (s.setSavedSr v).halted = s.halted := rfl
@[simp] theorem State.setSavedSr_cycles (v : Word) : (s.setSavedSr v).cycles = s.cycles := rfl
@[simp] theorem State.setSavedSr_mem (v : Word) : (s.setSavedSr v).mem = s.mem := rfl
@[simp] theorem State.setSavedSr_readGp (v : Word) (i : Nat) : (s.setSavedSr v).readGp i = s.readGp i := rfl
@[simp] theorem State.setSavedSr_reg (v : Word) (i : Reg) : (s.setSavedSr v).reg i = s.reg i := rfl
@[simp] theorem State.setSavedSr_flags (v : Word) : (s.setSavedSr v).flags = s.flags := rfl
@[simp] theorem State.setSavedSr_bank (v : Word) (q : Ring) : (s.setSavedSr v).bank q = s.bank q := by cases q <;> rfl

/-! ### setHalted -/

@[simp] theorem State.setHalted_x (b : Bool) : (s.setHalted b).x = s.x := rfl
@[simp] theorem State.setHalted_pc (b : Bool) : (s.setHalted b).pc = s.pc := rfl
@[simp] theorem State.setHalted_sp (b : Bool) : (s.setHalted b).sp = s.sp := rfl
@[simp] theorem State.setHalted_ksp (b : Bool) : (s.setHalted b).ksp = s.ksp := rfl
@[simp] theorem State.setHalted_ssp (b : Bool) : (s.setHalted b).ssp = s.ssp := rfl
@[simp] theorem State.setHalted_usp (b : Bool) : (s.setHalted b).usp = s.usp := rfl
@[simp] theorem State.setHalted_lr (b : Bool) : (s.setHalted b).lr = s.lr := rfl
@[simp] theorem State.setHalted_sr (b : Bool) : (s.setHalted b).sr = s.sr := rfl
@[simp] theorem State.setHalted_ring (b : Bool) : (s.setHalted b).ring = s.ring := rfl
@[simp] theorem State.setHalted_savedPc (b : Bool) : (s.setHalted b).savedPc = s.savedPc := rfl
@[simp] theorem State.setHalted_savedSr (b : Bool) : (s.setHalted b).savedSr = s.savedSr := rfl
@[simp] theorem State.setHalted_halted (b : Bool) : (s.setHalted b).halted = b := rfl
@[simp] theorem State.setHalted_cycles (b : Bool) : (s.setHalted b).cycles = s.cycles := rfl
@[simp] theorem State.setHalted_mem (b : Bool) : (s.setHalted b).mem = s.mem := rfl
@[simp] theorem State.setHalted_readGp (b : Bool) (i : Nat) : (s.setHalted b).readGp i = s.readGp i := rfl
@[simp] theorem State.setHalted_reg (b : Bool) (i : Reg) : (s.setHalted b).reg i = s.reg i := rfl
@[simp] theorem State.setHalted_flags (b : Bool) : (s.setHalted b).flags = s.flags := rfl
@[simp] theorem State.setHalted_bank (b : Bool) (q : Ring) : (s.setHalted b).bank q = s.bank q := by cases q <;> rfl

/-! ### addCycle -/

@[simp] theorem State.addCycle_x : (s.addCycle).x = s.x := rfl
@[simp] theorem State.addCycle_pc : (s.addCycle).pc = s.pc := rfl
@[simp] theorem State.addCycle_sp : (s.addCycle).sp = s.sp := rfl
@[simp] theorem State.addCycle_ksp : (s.addCycle).ksp = s.ksp := rfl
@[simp] theorem State.addCycle_ssp : (s.addCycle).ssp = s.ssp := rfl
@[simp] theorem State.addCycle_usp : (s.addCycle).usp = s.usp := rfl
@[simp] theorem State.addCycle_lr : (s.addCycle).lr = s.lr := rfl
@[simp] theorem State.addCycle_sr : (s.addCycle).sr = s.sr := rfl
@[simp] theorem State.addCycle_ring : (s.addCycle).ring = s.ring := rfl
@[simp] theorem State.addCycle_savedPc : (s.addCycle).savedPc = s.savedPc := rfl
@[simp] theorem State.addCycle_savedSr : (s.addCycle).savedSr = s.savedSr := rfl
@[simp] theorem State.addCycle_halted : (s.addCycle).halted = s.halted := rfl
@[simp] theorem State.addCycle_cycles : (s.addCycle).cycles = s.cycles + 1 := rfl
@[simp] theorem State.addCycle_mem : (s.addCycle).mem = s.mem := rfl
@[simp] theorem State.addCycle_readGp (i : Nat) : (s.addCycle).readGp i = s.readGp i := rfl
@[simp] theorem State.addCycle_reg (i : Reg) : (s.addCycle).reg i = s.reg i := rfl
@[simp] theorem State.addCycle_flags : (s.addCycle).flags = s.flags := rfl
@[simp] theorem State.addCycle_bank (q : Ring) : (s.addCycle).bank q = s.bank q := by cases q <;> rfl

/-! ### setMem -/

@[simp] theorem State.setMem_x (m : Memory) : (s.setMem m).x = s.x := rfl
@[simp] theorem State.setMem_pc (m : Memory) : (s.setMem m).pc = s.pc := rfl
@[simp] theorem State.setMem_sp (m : Memory) : (s.setMem m).sp = s.sp := rfl
@[simp] theorem State.setMem_ksp (m : Memory) : (s.setMem m).ksp = s.ksp := rfl
@[simp] theorem State.setMem_ssp (m : Memory) : (s.setMem m).ssp = s.ssp := rfl
@[simp] theorem State.setMem_usp (m : Memory) : (s.setMem m).usp = s.usp := rfl
@[simp] theorem State.setMem_lr (m : Memory) : (s.setMem m).lr = s.lr := rfl
@[simp] theorem State.setMem_sr (m : Memory) : (s.setMem m).sr = s.sr := rfl
@[simp] theorem State.setMem_ring (m : Memory) : (s.setMem m).ring = s.ring := rfl
@[simp] theorem State.setMem_savedPc (m : Memory) : (s.setMem m).savedPc = s.savedPc := rfl
@[simp] theorem State.setMem_savedSr (m : Memory) : (s.setMem m).savedSr = s.savedSr := rfl
@[simp] theorem State.setMem_halted (m : Memory) : (s.setMem m).halted = s.halted := rfl
@[simp] theorem State.setMem_cycles (m : Memory) : (s.setMem m).cycles = s.cycles := rfl
@[simp] theorem State.setMem_mem (m : Memory) : (s.setMem m).mem = m := rfl
@[simp] theorem State.setMem_readGp (m : Memory) (i : Nat) : (s.setMem m).readGp i = s.readGp i := rfl
@[simp] theorem State.setMem_reg (m : Memory) (i : Reg) : (s.setMem m).reg i = s.reg i := rfl
@[simp] theorem State.setMem_flags (m : Memory) : (s.setMem m).flags = s.flags := rfl
@[simp] theorem State.setMem_bank (m : Memory) (q : Ring) : (s.setMem m).bank q = s.bank q := by cases q <;> rfl

/-! ### setBank -/

@[simp] theorem State.setBank_x (r : Ring) (v : Word) : (s.setBank r v).x = s.x := by cases r <;> rfl
@[simp] theorem State.setBank_pc (r : Ring) (v : Word) : (s.setBank r v).pc = s.pc := by cases r <;> rfl
@[simp] theorem State.setBank_sp (r : Ring) (v : Word) : (s.setBank r v).sp = s.sp := by cases r <;> rfl
@[simp] theorem State.setBank_lr (r : Ring) (v : Word) : (s.setBank r v).lr = s.lr := by cases r <;> rfl
@[simp] theorem State.setBank_sr (r : Ring) (v : Word) : (s.setBank r v).sr = s.sr := by cases r <;> rfl
@[simp] theorem State.setBank_ring (r : Ring) (v : Word) : (s.setBank r v).ring = s.ring := by cases r <;> rfl
@[simp] theorem State.setBank_savedPc (r : Ring) (v : Word) : (s.setBank r v).savedPc = s.savedPc := by cases r <;> rfl
@[simp] theorem State.setBank_savedSr (r : Ring) (v : Word) : (s.setBank r v).savedSr = s.savedSr := by cases r <;> rfl
@[simp] theorem State.setBank_halted (r : Ring) (v : Word) : (s.setBank r v).halted = s.halted := by cases r <;> rfl
@[simp] theorem State.setBank_cycles (r : Ring) (v : Word) : (s.setBank r v).cycles = s.cycles := by cases r <;> rfl
@[simp] theorem State.setBank_mem (r : Ring) (v : Word) : (s.setBank r v).mem = s.mem := by cases r <;> rfl
@[simp] theorem State.setBank_ksp (r : Ring) (v : Word) :
    (s.setBank r v).ksp = if r = .kernel then v else s.ksp := by cases r <;> rfl
@[simp] theorem State.setBank_ssp (r : Ring) (v : Word) :
    (s.setBank r v).ssp = if r = .supervisor then v else s.ssp := by cases r <;> rfl
@[simp] theorem State.setBank_usp (r : Ring) (v : Word) :
    (s.setBank r v).usp = if r = .user then v else s.usp := by cases r <;> rfl
@[simp] theorem State.setBank_bank (r q : Ring) (v : Word) :
    (s.setBank r v).bank q = if r = q then v else s.bank q := by cases r <;> cases q <;> rfl
@[simp] theorem State.setBank_readGp (r : Ring) (v : Word) (i : Nat) :
    (s.setBank r v).readGp i = s.readGp i := by cases r <;> rfl
@[simp] theorem State.setBank_reg (r : Ring) (v : Word) (i : Reg) :
    (s.setBank r v).reg i = s.reg i := by cases r <;> rfl
@[simp] theorem State.setBank_flags (r : Ring) (v : Word) : (s.setBank r v).flags = s.flags := by cases r <;> rfl

/-! ### writeGp and setReg -/

@[simp] theorem State.writeGp_pc (i : Nat) (v : Word) : (s.writeGp i v).pc = s.pc := by
  unfold State.writeGp; split <;> rfl
@[simp] theorem State.writeGp_sp (i : Nat) (v : Word) : (s.writeGp i v).sp = s.sp := by
  unfold State.writeGp; split <;> rfl
@[simp] theorem State.writeGp_ksp (i : Nat) (v : Word) : (s.writeGp i v).ksp = s.ksp := by
  unfold State.writeGp; split <;> rfl
@[simp] theorem State.writeGp_ssp (i : Nat) (v : Word) : (s.writeGp i v).ssp = s.ssp := by
  unfold State.writeGp; split <;> rfl
@[simp] theorem State.writeGp_usp (i : Nat) (v : Word) : (s.writeGp i v).usp = s.usp := by
  unfold State.writeGp; split <;> rfl
@[simp] theorem State.writeGp_lr (i : Nat) (v : Word) : (s.writeGp i v).lr = s.lr := by
  unfold State.writeGp; split <;> rfl
@[simp] theorem State.writeGp_sr (i : Nat) (v : Word) : (s.writeGp i v).sr = s.sr := by
  unfold State.writeGp; split <;> rfl
@[simp] theorem State.writeGp_ring (i : Nat) (v : Word) : (s.writeGp i v).ring = s.ring := by
  unfold State.writeGp; split <;> rfl
@[simp] theorem State.writeGp_savedPc (i : Nat) (v : Word) : (s.writeGp i v).savedPc = s.savedPc := by
  unfold State.writeGp; split <;> rfl
@[simp] theorem State.writeGp_savedSr (i : Nat) (v : Word) : (s.writeGp i v).savedSr = s.savedSr := by
  unfold State.writeGp; split <;> rfl
@[simp] theorem State.writeGp_halted (i : Nat) (v : Word) : (s.writeGp i v).halted = s.halted := by
  unfold State.writeGp; split <;> rfl
@[simp] theorem State.writeGp_cycles (i : Nat) (v : Word) : (s.writeGp i v).cycles = s.cycles := by
  unfold State.writeGp; split <;> rfl
@[simp] theorem State.writeGp_mem (i : Nat) (v : Word) : (s.writeGp i v).mem = s.mem := by
  unfold State.writeGp; split <;> rfl
@[simp] theorem State.writeGp_flags (i : Nat) (v : Word) : (s.writeGp i v).flags = s.flags := by
  unfold State.writeGp; split <;> rfl
@[simp] theorem State.writeGp_bank (i : Nat) (v : Word) (q : Ring) : (s.writeGp i v).bank q = s.bank q := by
  unfold State.writeGp; split <;> rfl
@[simp] theorem State.setReg_pc (r : Reg) (v : Word) : (s.setReg r v).pc = s.pc := s.writeGp_pc _ _
@[simp] theorem State.setReg_sp (r : Reg) (v : Word) : (s.setReg r v).sp = s.sp := s.writeGp_sp _ _
@[simp] theorem State.setReg_ksp (r : Reg) (v : Word) : (s.setReg r v).ksp = s.ksp := s.writeGp_ksp _ _
@[simp] theorem State.setReg_ssp (r : Reg) (v : Word) : (s.setReg r v).ssp = s.ssp := s.writeGp_ssp _ _
@[simp] theorem State.setReg_usp (r : Reg) (v : Word) : (s.setReg r v).usp = s.usp := s.writeGp_usp _ _
@[simp] theorem State.setReg_lr (r : Reg) (v : Word) : (s.setReg r v).lr = s.lr := s.writeGp_lr _ _
@[simp] theorem State.setReg_sr (r : Reg) (v : Word) : (s.setReg r v).sr = s.sr := s.writeGp_sr _ _
@[simp] theorem State.setReg_ring (r : Reg) (v : Word) : (s.setReg r v).ring = s.ring := s.writeGp_ring _ _
@[simp] theorem State.setReg_savedPc (r : Reg) (v : Word) : (s.setReg r v).savedPc = s.savedPc := s.writeGp_savedPc _ _
@[simp] theorem State.setReg_savedSr (r : Reg) (v : Word) : (s.setReg r v).savedSr = s.savedSr := s.writeGp_savedSr _ _
@[simp] theorem State.setReg_halted (r : Reg) (v : Word) : (s.setReg r v).halted = s.halted := s.writeGp_halted _ _
@[simp] theorem State.setReg_cycles (r : Reg) (v : Word) : (s.setReg r v).cycles = s.cycles := s.writeGp_cycles _ _
@[simp] theorem State.setReg_mem (r : Reg) (v : Word) : (s.setReg r v).mem = s.mem := s.writeGp_mem _ _
@[simp] theorem State.setReg_flags (r : Reg) (v : Word) : (s.setReg r v).flags = s.flags := s.writeGp_flags _ _
@[simp] theorem State.setReg_bank (r : Reg) (v : Word) (q : Ring) : (s.setReg r v).bank q = s.bank q :=
  s.writeGp_bank _ _ _

/-! ### The state after reset (R32) -/

@[simp] theorem State.resetWith_pc (m : Memory) : (State.resetWith m).pc = Config.pcReset := rfl
@[simp] theorem State.resetWith_sp (m : Memory) : (State.resetWith m).sp = Config.kspReset := rfl
@[simp] theorem State.resetWith_ksp (m : Memory) : (State.resetWith m).ksp = Config.kspReset := rfl
@[simp] theorem State.resetWith_ssp (m : Memory) : (State.resetWith m).ssp = Config.sspReset := rfl
@[simp] theorem State.resetWith_usp (m : Memory) : (State.resetWith m).usp = Config.uspReset := rfl
@[simp] theorem State.resetWith_lr (m : Memory) : (State.resetWith m).lr = Config.wordReset := rfl
@[simp] theorem State.resetWith_sr (m : Memory) : (State.resetWith m).sr = Config.wordReset := rfl
@[simp] theorem State.resetWith_ring (m : Memory) : (State.resetWith m).ring = Config.ringReset := rfl
@[simp] theorem State.resetWith_savedPc (m : Memory) : (State.resetWith m).savedPc = Config.wordReset := rfl
@[simp] theorem State.resetWith_savedSr (m : Memory) : (State.resetWith m).savedSr = Config.wordReset := rfl
@[simp] theorem State.resetWith_halted (m : Memory) : (State.resetWith m).halted = false := rfl
@[simp] theorem State.resetWith_cycles (m : Memory) : (State.resetWith m).cycles = 0 := rfl
@[simp] theorem State.resetWith_mem (m : Memory) : (State.resetWith m).mem = m := rfl

end Sys2Proof.Machine
end

