-- ==== Sys2Proof/Laws/Registers.lean ====
section
/-! SUPPORT. The general registers: what a read gives after a write (R11, R12). -/

namespace Sys2Proof.Machine

variable (s : State)

@[simp] theorem State.readGp_zero : s.readGp 0 = 0 := rfl

theorem State.readGp_out_of_range {i : Nat} (h : Config.nreg ≤ i) : s.readGp i = 0 := by
  unfold State.readGp
  exact dif_neg (by omega)

theorem State.writeGp_zero (v : Word) : s.writeGp 0 v = s := rfl

theorem State.writeGp_out_of_range {i : Nat} (h : Config.nreg ≤ i) (v : Word) : s.writeGp i v = s := by
  unfold State.writeGp
  exact dif_neg (by omega)

theorem State.readGp_writeGp (i j : Nat) (v : Word) :
    (s.writeGp i v).readGp j = if i = j ∧ 1 ≤ i ∧ i ≤ 15 then v else s.readGp j := by
  have hn : Config.nreg = 16 := rfl
  by_cases hi : 1 ≤ i ∧ i < Config.nreg
  · by_cases hj : 1 ≤ j ∧ j < Config.nreg
    · simp only [State.writeGp, State.readGp, dif_pos hi, dif_pos hj, Vector.getElem_set]
      exact if_congr (by omega) rfl rfl
    · have hne : ¬(i = j ∧ 1 ≤ i ∧ i ≤ 15) := by omega
      simp only [State.readGp, dif_neg hj, if_neg hne]
  · have hne : ¬(i = j ∧ 1 ≤ i ∧ i ≤ 15) := by omega
    simp only [State.writeGp, dif_neg hi, if_neg hne]

@[simp] theorem State.reg_zero : s.reg 0 = 0 := rfl

/-- All that a write of an instruction's register field does to the registers: register 0 still reads 0, any other
destination reads the value, every other register reads as before. -/
theorem State.reg_setReg (rd r : Reg) (v : Word) :
    (s.setReg rd v).reg r = if r = rd then (if rd = 0 then 0 else v) else s.reg r := by
  unfold State.reg State.setReg
  rw [State.readGp_writeGp]
  by_cases h : r = rd
  · subst h
    by_cases h0 : r = 0
    · subst h0; rfl
    · have h1 : r.val ≠ 0 := fun hv => h0 (Fin.ext hv)
      rw [if_pos ⟨rfl, by omega, by omega⟩, if_pos rfl, if_neg h0]
  · have h1 : rd.val ≠ r.val := fun hv => h (Fin.ext hv.symm)
    rw [if_neg (fun hc => h1 hc.1), if_neg h]

theorem State.setReg_writesReg (rd : Reg) (v : Word) : WritesReg rd v s (s.setReg rd v) :=
  ⟨by rw [State.reg_setReg, if_pos rfl], fun r h => by rw [State.reg_setReg, if_neg h]⟩

end Sys2Proof.Machine
end

