-- ==== Sys2Proof/Laws/Flags.lean ====
section
/-! SUPPORT. The flag unit: what each bit reads after a flag is put, and all that the two flag updates do (R22, R96). -/

namespace Sys2Proof

theorem getLsbD_putBit (w : Word) (i k : Fin 16) (b : Bool) :
    (putBit w i b).getLsbD k.val = if k = i then b else w.getLsbD k.val := by
  have hk : k.val < 16 := k.isLt
  by_cases h : k = i
  · subst h
    cases b <;> simp [putBit, hk]
  · have h' : ¬ k.val = i.val := fun e => h (Fin.ext e)
    cases b <;> simp [putBit, hk, h, h']

/-- The same in the form simp leaves a bit in. -/
@[simp] theorem getElem_putBit (w : Word) (i k : Fin 16) (b : Bool) :
    (putBit w i b)[k.val] = if k = i then b else w[k.val] := by
  have h := getLsbD_putBit w i k b
  simpa using h

namespace Machine

theorem isZero_iff (r : Word) : isZero r = decide (r.toNat = 0) := by
  rw [isZero, Bool.eq_iff_iff, beq_iff_eq, decide_eq_true_iff]
  exact ⟨fun h => by rw [h]; rfl, fun h => BitVec.eq_of_toNat_eq h⟩

theorem isNegative_iff (r : Word) : isNegative r = decide (0x8000 ≤ r.toNat) := by
  have : isNegative r = r.msb := by simp [isNegative, BitVec.msb_eq_getLsbD_last]
  rw [this, BitVec.msb_eq_decide]

/-- Class ZN changes Z and N alone. -/
theorem getLsbD_srZN (sr r : Word) (k : Fin 16) :
    (srZN sr r).getLsbD k.val =
      if k = Config.flagLayout.nBit then isNegative r
      else if k = Config.flagLayout.zBit then isZero r
      else sr.getLsbD k.val := by
  rw [srZN, getLsbD_putBit, getLsbD_putBit]

/-- Class ZNC changes Z, N and C alone. -/
theorem getLsbD_srZNC (sr r : Word) (c : Bool) (k : Fin 16) :
    (srZNC sr r c).getLsbD k.val =
      if k = Config.flagLayout.cBit then c else (srZN sr r).getLsbD k.val := by
  rw [srZNC, getLsbD_putBit]

/-- All that the end of a ZN instruction does. -/
theorem finishZN_spec (s : State) (rd : Reg) (r : Word) :
    WritesReg rd r s (s.finishZN rd r) ∧ WritesZN r s (s.finishZN rd r) ∧ SameElsewhere s (s.finishZN rd r) := by
  have hs : (s.finishZN rd r).sr = srZN s.sr r := by simp [State.finishZN]
  refine ⟨?_, ⟨?_, ?_, ?_, ?_, ?_⟩, ?_, ?_, ?_, ?_⟩
  · have h := s.setReg_writesReg rd r
    exact ⟨by simpa [State.finishZN] using h.1, fun q hq => by simpa [State.finishZN] using h.2 q hq⟩
  · simp only [State.flags, FlagLayout.fromBits, hs, getLsbD_srZN, isZero_iff, isNegative_iff]; rfl
  · simp only [State.flags, FlagLayout.fromBits, hs, getLsbD_srZN, isZero_iff, isNegative_iff]; rfl
  · simp only [State.flags, FlagLayout.fromBits, hs, getLsbD_srZN]; rfl
  · simp only [State.flags, FlagLayout.fromBits, hs, getLsbD_srZN]; rfl
  · intro k hz hn hc hv
    rw [hs, getLsbD_srZN, if_neg hn, if_neg hz]
  · constructor <;> simp [State.finishZN]
  · simp [State.finishZN]
  · simp [State.finishZN]
  · intro a; simp [State.finishZN]

/-- All that the end of a ZNC instruction does. -/
theorem finishZNC_spec (s : State) (rd : Reg) (sum : Nat) :
    WritesReg rd (BitVec.ofNat 16 sum) s (s.finishZNC rd sum) ∧ WritesZNC sum s (s.finishZNC rd sum) ∧
      SameElsewhere s (s.finishZNC rd sum) := by
  have hs : (s.finishZNC rd sum).sr = srZNC s.sr (BitVec.ofNat 16 sum) (carryOut sum) := by simp [State.finishZNC]
  have hr : (BitVec.ofNat 16 sum).toNat = sum % 0x10000 := BitVec.toNat_ofNat _ _
  refine ⟨?_, ⟨?_, ?_, ?_, ?_, ?_⟩, ?_, ?_, ?_, ?_⟩
  · have h := s.setReg_writesReg rd (BitVec.ofNat 16 sum)
    exact ⟨by simpa [State.finishZNC] using h.1, fun q hq => by simpa [State.finishZNC] using h.2 q hq⟩
  · simp only [State.flags, FlagLayout.fromBits, hs, getLsbD_srZNC, getLsbD_srZN, isZero_iff, hr]; rfl
  · simp only [State.flags, FlagLayout.fromBits, hs, getLsbD_srZNC, getLsbD_srZN, isNegative_iff, hr]; rfl
  · simp only [State.flags, FlagLayout.fromBits, hs, getLsbD_srZNC, getLsbD_srZN]; rfl
  · simp only [State.flags, FlagLayout.fromBits, hs, getLsbD_srZNC, getLsbD_srZN]; rfl
  · intro k hz hn hc hv
    rw [hs, getLsbD_srZNC, getLsbD_srZN, if_neg hc, if_neg hn, if_neg hz]
  · constructor <;> simp [State.finishZNC]
  · simp [State.finishZNC]
  · simp [State.finishZNC]
  · intro a; simp [State.finishZNC]

end Machine

end Sys2Proof
end

