-- ==== Sys2Proof/Laws/Memory.lean ====
section
/-! SUPPORT. Memory: a read after a write, at bytes and at words, and the canonical form kept by every operation. The
read laws hold of every list, canonical or not. -/

namespace Sys2Proof.Machine

namespace Memory

theorem read_drop (m : Memory) (a b : Nat) :
    (m.drop a).read b = if b = a then Config.unlistedByte else m.read b := by
  induction m with
  | nil => simp [drop, read]
  | cons e m ih =>
    obtain ⟨k, c⟩ := e
    by_cases hk : a = k
    · subst hk
      by_cases hb : b = a
      · rw [if_pos hb] at ih ⊢
        simpa [drop] using ih
      · simp [drop, read, ih, hb]
    · by_cases hb : b = k
      · subst hb
        simp [drop, read, hk, Ne.symm hk]
      · simp [drop, read, hk, hb, ih]

theorem read_place (m : Memory) (a b : Nat) (v : Byte) (h : m.read a = Config.unlistedByte)
    (hm : ∀ c, (a, c) ∉ m) : (m.place a v).read b = if b = a then v else m.read b := by
  induction m with
  | nil => simp [place, read]
  | cons e m ih =>
    obtain ⟨k, c⟩ := e
    have hak : a ≠ k := fun hk => hm c (hk ▸ List.mem_cons_self)
    have hr : Memory.read m a = Config.unlistedByte := by simpa [read, hak] using h
    have ih' := ih hr (fun c hc => hm c (List.mem_cons_of_mem _ hc))
    by_cases hlt : a < k
    · simp [place, read, hlt]
    · by_cases hb : b = k
      · subst hb
        simp [place, read, hlt, Ne.symm hak]
      · simp [place, read, hlt, hb, ih']

theorem not_mem_drop (m : Memory) (a : Nat) (c : Byte) : (a, c) ∉ m.drop a := by
  induction m with
  | nil => simp [drop]
  | cons e m ih =>
    obtain ⟨k, d⟩ := e
    by_cases hk : a = k
    · subst hk; simpa [drop] using ih
    · simp only [drop, if_neg hk, List.mem_cons, Prod.mk.injEq, not_or]
      exact ⟨fun h => hk h.1, ih⟩

/-- A read after a write: the byte written at its address, the byte that was there anywhere else. -/
theorem read_write (m : Memory) (a b : Nat) (v : Byte) :
    (m.write a v).read b = if b = a then v else m.read b := by
  unfold write
  split
  · next h => rw [read_drop, h]
  · rw [read_place _ _ _ _ (by rw [read_drop, if_pos rfl]) (m.not_mem_drop a), read_drop]
    split <;> rfl

@[simp] theorem read_write_same (m : Memory) (a : Nat) (v : Byte) : (m.write a v).read a = v := by
  rw [read_write, if_pos rfl]

theorem read_write_other (m : Memory) {a b : Nat} (v : Byte) (h : b ≠ a) : (m.write a v).read b = m.read b := by
  rw [read_write, if_neg h]

/-! ### The canonical form -/

theorem wfFrom_mono {m : Memory} {low low' : Nat} (h : m.wfFrom low = true) (hl : low' ≤ low) :
    m.wfFrom low' = true := by
  cases m with
  | nil => rfl
  | cons e m =>
    simp only [wfFrom, Bool.and_eq_true, decide_eq_true_eq] at h ⊢
    exact ⟨⟨⟨by omega, h.1.1.2⟩, h.1.2⟩, h.2⟩

theorem wfFrom_drop {m : Memory} {low : Nat} (a : Nat) (h : m.wfFrom low = true) :
    (m.drop a).wfFrom low = true := by
  induction m generalizing low with
  | nil => rfl
  | cons e m ih =>
    obtain ⟨k, c⟩ := e
    simp only [wfFrom, Bool.and_eq_true, decide_eq_true_eq] at h
    by_cases hk : a = k
    · simp only [drop, if_pos hk]
      exact wfFrom_mono (ih h.2) (by omega)
    · simp only [drop, if_neg hk, wfFrom, Bool.and_eq_true, decide_eq_true_eq]
      exact ⟨h.1, ih h.2⟩

theorem wfFrom_place {m : Memory} {low a : Nat} {v : Byte} (h : m.wfFrom low = true) (hm : ∀ c, (a, c) ∉ m)
    (hl : low ≤ a) (ha : a < Config.memSize) (hv : v ≠ Config.unlistedByte) : (m.place a v).wfFrom low = true := by
  induction m generalizing low with
  | nil => simp [place, wfFrom, hl, ha, hv]
  | cons e m ih =>
    obtain ⟨k, c⟩ := e
    simp only [wfFrom, Bool.and_eq_true, decide_eq_true_eq] at h
    have hak : a ≠ k := fun hk => hm c (hk ▸ List.mem_cons_self)
    by_cases hlt : a < k
    · simp only [place, if_pos hlt, wfFrom, Bool.and_eq_true, decide_eq_true_eq, bne_iff_ne]
      exact ⟨⟨⟨hl, ha⟩, hv⟩, ⟨⟨by omega, h.1.1.2⟩, by simpa using h.1.2⟩, h.2⟩
    · simp only [place, if_neg hlt, wfFrom, Bool.and_eq_true, decide_eq_true_eq]
      exact ⟨h.1, ih h.2 (fun c hc => hm c (List.mem_cons_of_mem _ hc)) (by omega)⟩

/-- A write within the space keeps the canonical form. -/
theorem wf_write {m : Memory} (a : Nat) (v : Byte) (h : m.wf = true) (ha : a < Config.memSize) :
    (m.write a v).wf = true := by
  unfold write
  split
  · exact wfFrom_drop a h
  · next hv => exact wfFrom_place (wfFrom_drop a h) (m.not_mem_drop a) (Nat.zero_le _) ha hv

/-! ### 16-bit accesses -/

/-- An access is out of bounds exactly at the last address (R42). -/
theorem accessInBounds_iff (a : Word) : accessInBounds a = true ↔ a ≠ 0xFFFF#16 := by
  have hlt : a.toNat < 65536 := a.isLt
  have hb : accessInBounds a = true ↔ a.toNat + 1 < 65536 := decide_eq_true_iff
  rw [hb]
  constructor
  · rintro h rfl
    exact absurd h (by decide)
  · intro h
    have h1 : a.toNat ≠ 0xFFFF := fun hn => h (BitVec.eq_of_toNat_eq hn)
    omega

theorem wf_writeWord {m : Memory} (a v : Word) (h : m.wf = true) : (m.writeWord a v).wf = true := by
  unfold writeWord
  split
  · next hb =>
    have hb' : a.toNat + 1 < Config.memSize := of_decide_eq_true hb
    exact wf_write _ _ (wf_write _ _ h (by omega)) hb'
  · exact h

/-- All that a word write does to the bytes: the low byte at `a`, the high byte at `a + 1`, and nothing at the last
address. -/
theorem read_writeWord (m : Memory) (a v : Word) (b : Nat) :
    (m.writeWord a v).read b =
      if accessInBounds a = true ∧ b = a.toNat then lowByte v
      else if accessInBounds a = true ∧ b = a.toNat + 1 then highByte v
      else m.read b := by
  unfold writeWord
  by_cases hb : accessInBounds a = true
  · simp only [hb, if_true, true_and, read_write]
    by_cases h1 : b = a.toNat + 1
    · rw [if_pos h1, if_neg (by omega), if_pos h1]
    · rw [if_neg h1, if_neg h1]
  · rw [if_neg hb, if_neg (fun h => hb h.1), if_neg (fun h => hb h.1)]

theorem wf_loadWords {m : Memory} (base : Nat) (ws : List Word) (h : m.wf = true) :
    (m.loadWords base ws).wf = true := by
  induction ws generalizing m base with
  | nil => exact h
  | cons w ws ih =>
    unfold loadWords
    split
    · exact ih _ (wf_write _ _ (wf_write _ _ h (by omega)) ‹_›)
    · exact h

/-- `MemRead` depends on the bytes of memory only, however they are listed. -/
theorem readWord_congr {m n : Memory} (h : ∀ a, m.read a = n.read a) (a : Word) : m.readWord a = n.readWord a := by
  simp only [readWord, h]

/-- `Fetch` depends on the bytes of memory only. -/
theorem fetch_congr {m n : Memory} (h : ∀ a, m.read a = n.read a) (a : Word) : m.fetch a = n.fetch a := by
  simp only [fetch, readWord_congr h]

/-- The memory reset with nothing listed is canonical. -/
theorem wf_memInit : Memory.wf Config.memInit = true := rfl

end Memory

end Sys2Proof.Machine
end

