-- ==== Sys2Proof/Laws/Operands.lean ====
section
/-! SUPPORT. The operands as numbers (R68). -/

namespace Sys2Proof.Machine

theorem zeroExtendImm_toNat (imm8 : BitVec 8) : (zeroExtendImm imm8).toNat = imm8.toNat := by
  have := imm8.isLt
  simp only [zeroExtendImm, BitVec.toNat_setWidth]
  omega

theorem jumpTarget_toNat (addr12 : BitVec 12) : (jumpTarget addr12).toNat = addr12.toNat := by
  have := addr12.isLt
  simp only [jumpTarget, BitVec.toNat_setWidth]
  omega

theorem effectiveAddress_toNat (base : Word) (offset : BitVec 4) :
    (effectiveAddress base offset).toNat = (base.toNat + 2 * offset.toNat) % 65536 := by
  have := offset.isLt
  simp only [effectiveAddress, BitVec.toNat_add, BitVec.toNat_mul, BitVec.toNat_setWidth, BitVec.reduceToNat]
  omega

theorem shiftAmount_eq (v : Word) : shiftAmount v = v.toNat % 16 := by
  simp only [shiftAmount, BitVec.extractLsb'_toNat, Nat.shiftRight_zero]

theorem signExtendImm_toInt (imm8 : BitVec 8) : (signExtendImm imm8).toInt = imm8.toInt :=
  BitVec.toInt_signExtend_of_le (by decide)

end Sys2Proof.Machine
end

