-- ==== Sys2Proof/Laws/PerInstr.lean ====
section
/-! SUPPORT. A law of every instruction as syntax: its encoded word has the fixed bits of its row of
spec/opcode_table.json (R62, R64). -/

namespace Sys2Proof.Laws.EncodingFitsRow

/-- The encoded word fits the opcode-table row of the instruction's mnemonic. -/
def Statement (i : Instr) : Prop := ∃ r, i.mnemonic.row = some r ∧ r.fits (encode i) = true

/-- A row that fixes the top nibble fits the words with that top nibble. -/
theorem fits_topNibble (m : Mnemonic) (w pattern : Word) (h : w.toNat / 4096 * 4096 = pattern.toNat) :
    ({ mnemonic := m, mask := 0xF000, pattern := pattern } : OpcodeRow).fits w = true := by
  have hw : w &&& 0xF000#16 = pattern := by rw [and_topNibble, h, BitVec.ofNat_toNat, BitVec.setWidth_eq]
  exact beq_iff_eq.mpr hw

/-- A row that fixes the top twelve bits fits the words that have them. -/
theorem fits_topTwelve (m : Mnemonic) (w pattern : Word) (h : w.toNat / 16 * 16 = pattern.toNat) :
    ({ mnemonic := m, mask := 0xFFF0, pattern := pattern } : OpcodeRow).fits w = true := by
  have hw : w &&& 0xFFF0#16 = pattern := by rw [and_topTwelve, h, BitVec.ofNat_toNat, BitVec.setWidth_eq]
  exact beq_iff_eq.mpr hw

theorem fits_nibbles (m : Mnemonic) (op : BitVec 4) (rd rs : Reg) (last : BitVec 4) (pattern : Word)
    (h : pattern.toNat = op.toNat * 4096) :
    ({ mnemonic := m, mask := 0xF000, pattern := pattern } : OpcodeRow).fits (wordOfNibbles op rd rs last) = true := by
  apply fits_topNibble
  rw [wordOfNibbles_toNat, h]
  omega

theorem fits_imm (m : Mnemonic) (op : BitVec 4) (rd : Reg) (imm8 : BitVec 8) (pattern : Word)
    (h : pattern.toNat = op.toNat * 4096) :
    ({ mnemonic := m, mask := 0xF000, pattern := pattern } : OpcodeRow).fits (wordOfImm op rd imm8) = true := by
  apply fits_topNibble
  rw [wordOfImm_toNat, h]
  omega

theorem fits_addr (m : Mnemonic) (op : BitVec 4) (a : BitVec 12) (pattern : Word)
    (h : pattern.toNat = op.toNat * 4096) :
    ({ mnemonic := m, mask := 0xF000, pattern := pattern } : OpcodeRow).fits (wordOfAddr op a) = true := by
  apply fits_topNibble
  rw [wordOfAddr_toNat, h]
  omega

theorem fits_extended (m : Mnemonic) (fixed : BitVec 12) (ignored : BitVec 4) (pattern : Word)
    (h : pattern.toNat = fixed.toNat * 16) :
    ({ mnemonic := m, mask := 0xFFF0, pattern := pattern } : OpcodeRow).fits (wordOfExtended fixed ignored) = true := by
  apply fits_topTwelve
  rw [wordOfExtended_toNat, h]
  omega

theorem halt : Statement .halt := ⟨_, rfl, rfl⟩

theorem call (ignored : BitVec 4) : Statement (.call ignored) := ⟨_, rfl, fits_extended _ _ _ _ rfl⟩

theorem ret (ignored : BitVec 4) : Statement (.ret ignored) := ⟨_, rfl, fits_extended _ _ _ _ rfl⟩

theorem push (ignored : BitVec 4) : Statement (.push ignored) := ⟨_, rfl, fits_extended _ _ _ _ rfl⟩

theorem pop (ignored : BitVec 4) : Statement (.pop ignored) := ⟨_, rfl, fits_extended _ _ _ _ rfl⟩

theorem bne (rd : Reg) (imm8 : BitVec 8) : Statement (.bne rd imm8) := ⟨_, rfl, fits_imm _ _ _ _ _ rfl⟩

theorem nop (ignored : BitVec 12) : Statement (.nop ignored) := ⟨_, rfl, fits_addr _ _ _ _ rfl⟩

theorem add (rd rs rt : Reg) : Statement (.add rd rs rt) := ⟨_, rfl, fits_nibbles _ _ _ _ _ _ rfl⟩

theorem addi (rd : Reg) (imm8 : BitVec 8) : Statement (.addi rd imm8) := ⟨_, rfl, fits_imm _ _ _ _ _ rfl⟩

theorem sub (rd rs rt : Reg) : Statement (.sub rd rs rt) := ⟨_, rfl, fits_nibbles _ _ _ _ _ _ rfl⟩

theorem and (rd rs rt : Reg) : Statement (.and rd rs rt) := ⟨_, rfl, fits_nibbles _ _ _ _ _ _ rfl⟩

theorem or (rd rs rt : Reg) : Statement (.or rd rs rt) := ⟨_, rfl, fits_nibbles _ _ _ _ _ _ rfl⟩

theorem xor (rd rs rt : Reg) : Statement (.xor rd rs rt) := ⟨_, rfl, fits_nibbles _ _ _ _ _ _ rfl⟩

theorem not (rd rs : Reg) (ignored : BitVec 4) : Statement (.not rd rs ignored) := ⟨_, rfl, fits_nibbles _ _ _ _ _ _ rfl⟩

theorem shl (rd rs rt : Reg) : Statement (.shl rd rs rt) := ⟨_, rfl, fits_nibbles _ _ _ _ _ _ rfl⟩

theorem shr (rd rs rt : Reg) : Statement (.shr rd rs rt) := ⟨_, rfl, fits_nibbles _ _ _ _ _ _ rfl⟩

theorem load (rd rs : Reg) (offset : BitVec 4) : Statement (.load rd rs offset) := ⟨_, rfl, fits_nibbles _ _ _ _ _ _ rfl⟩

theorem store (rd rs : Reg) (offset : BitVec 4) : Statement (.store rd rs offset) := ⟨_, rfl, fits_nibbles _ _ _ _ _ _ rfl⟩

theorem loadi (rd : Reg) (imm8 : BitVec 8) : Statement (.loadi rd imm8) := ⟨_, rfl, fits_imm _ _ _ _ _ rfl⟩

theorem jmp (addr12 : BitVec 12) : Statement (.jmp addr12) := ⟨_, rfl, fits_addr _ _ _ _ rfl⟩

theorem beq (rd : Reg) (imm8 : BitVec 8) : Statement (.beq rd imm8) := ⟨_, rfl, fits_imm _ _ _ _ _ rfl⟩

end Sys2Proof.Laws.EncodingFitsRow
end

