-- ==== Sys2Proof/Laws/Privilege.lean ====
section
/-! SUPPORT. All that each operation of the privilege-transition controller does (R163, R171, R172). -/

namespace Sys2Proof.Machine

variable (s : State)

/-- Taking an exception, in one formula: the bank of the ring left is written only where that ring is not Kernel. -/
theorem State.raise_spec :
    s.raisePrivilegeOnException =
      { s with
        savedPc := s.pc
        savedSr := s.sr
        ssp     := if s.ring = .supervisor then s.sp else s.ssp
        usp     := if s.ring = .user then s.sp else s.usp
        ring    := .kernel
        sp      := s.ksp
        pc      := Config.excHandler } := by
  obtain ⟨x, pc, sp, ksp, ssp, usp, lr, sr, ring, savedPc, savedSr, halted, cycles, mem⟩ := s
  cases ring <;> rfl

/-- Entering the Kernel ring, in one formula. -/
theorem State.enterKernelMode_spec :
    s.enterKernelMode =
      if s.ring = .user then { s with usp := s.sp, sp := s.ksp, ring := .kernel } else s := by
  obtain ⟨x, pc, sp, ksp, ssp, usp, lr, sr, ring, savedPc, savedSr, halted, cycles, mem⟩ := s
  cases ring <;> rfl

/-- Dropping privilege: the fields it writes. -/
theorem State.dropPrivilege_spec (target : Ring) :
    s.dropPrivilege target =
      ((s.setBank s.ring s.sp).setSp (if s.ring = target then s.sp else s.bank target)).setRing target := by
  simp only [State.dropPrivilege, State.setBank_bank]

/-- After a transition the live stack pointer is the bank of the ring, where it was before. -/
theorem State.raise_spIsBank : s.raisePrivilegeOnException.sp = s.raisePrivilegeOnException.bank
    s.raisePrivilegeOnException.ring := by
  rw [State.raise_spec]; rfl

theorem State.enterKernelMode_spIsBank (h : s.sp = s.bank s.ring) :
    s.enterKernelMode.sp = s.enterKernelMode.bank s.enterKernelMode.ring := by
  rw [State.enterKernelMode_spec]
  split
  · rfl
  · exact h

theorem State.dropPrivilege_spIsBank (target : Ring) :
    (s.dropPrivilege target).sp = (s.dropPrivilege target).bank (s.dropPrivilege target).ring := by
  simp [State.dropPrivilege_spec]

end Sys2Proof.Machine
end

