-- ==== Sys2Proof/Laws/Step.lean ====
section
/-! SUPPORT. What a step and the operations of the interface can do, said once: the inversion of a step, the meaning of
each instruction as a next state, and the step's dependence on the fetched word. -/

namespace Sys2Proof.Machine

/-- No meaning stops: each answers a next state. -/
theorem exec_answers (i : Instr) (s : State) : ∃ t, exec i s = .next t := by
  cases i <;> exact ⟨_, rfl⟩

/-- A step that answers a next state ran a decoded instruction on the state with its `pc` advanced, and counted one
cycle. -/
theorem step_next_cases {s t : State} (h : step s = .next t) :
    s.halted = false ∧ ∃ i u, decodeWord s.fetchWord = some i ∧ exec i s.advancePc = .next u ∧ t = u.addCycle := by
  unfold step at h
  split at h
  · cases h
  · next hh =>
    split at h
    · next i hi =>
      obtain ⟨u, hu⟩ := exec_answers i s.advancePc
      rw [hu] at h
      simp only [countCycle, Host.Outcome.next.injEq] at h
      exact ⟨by simpa using hh, i, u, hi, hu, h.symm⟩
    · cases h

/-- On a running machine whose fetched word decodes, the step is that instruction's. -/
theorem step_of_decode {s : State} {i : Instr} (hh : s.halted = false) (hi : decodeWord s.fetchWord = some i) :
    step s = countCycle (exec i s.advancePc) := by
  unfold step
  rw [hh, hi]
  rfl

@[simp] theorem countCycle_next (s : State) : countCycle (.next s) = .next s.addCycle := rfl

/-- A branch leaves all but `pc` as it is. -/
theorem State.branchIf_spec (s : State) (taken : Bool) (imm8 : BitVec 8) :
    s.branchIf taken imm8 = s.setPc (if taken then branchTarget s.pc imm8 else s.pc) := by
  cases taken <;> rfl

/-- A table word stored where the next step fetches is the word it fetches, but for the last address. -/
theorem State.withFetchWord_fetchWord (s : State) (nbits w : Nat) (h : s.pc ≠ 0xFFFF#16) :
    (s.withFetchWord nbits w).fetchWord = tableWord nbits w := by
  have hb : accessInBounds s.pc = true := (Memory.accessInBounds_iff _).mpr h
  simp [State.fetchWord, State.withFetchWord, Memory.fetch, Memory.readWord, Memory.read_writeWord, hb]

/-- The decoder that the table asks is the one the engine consumes. -/
theorem decodeTableWord_eq (nbits w : Nat) : decodeTableWord nbits w = decodeWord (tableWord nbits w) := by
  simp only [decodeTableWord, decodeBytes, wordOfBytes_low_high]
  cases decodeWord (tableWord nbits w) <;> rfl

/-- The memory effect of every meaning: STORE writes a word, no other instruction writes memory. -/
theorem exec_mem {i : Instr} {s t : State} (h : exec i s = .next t) :
    t.mem = match i with
      | .store rd rs offset => s.mem.writeWord (effectiveAddress (s.reg rs) offset) (s.reg rd)
      | _ => s.mem := by
  cases i <;> cases h <;>
    simp only [State.finishZN, State.finishZNC, State.branchIf_spec, State.setReg_mem, State.setSr_mem, State.setPc_mem,
      State.setMem_mem, State.setHalted_mem]

end Sys2Proof.Machine
end

