-- ==== Sys2Proof/Tests/Slice0.lean ====
section
/-! SUPPORT. The model's own tests. The words of the decode tests are written out bit by bit from the format table of
spec/30_encoding.md R62; the expected results of the step tests are rows of spec/95_test_vectors.md (parts 3 and 4).
The witnesses at the end show for each statement with hypotheses a concrete case that meets them. -/

namespace Sys2Proof.Tests

open Sys2Proof.Machine

/-- A running machine at `pc` with the word placed there, two general registers set, and flags. -/
def machineAt (pc : Word) (word : Nat) (r : Nat) (v : Word) (r' : Nat) (v' : Word) (f : Flags) : State :=
  ((((State.reset.setPc pc).writeGp r v).writeGp r' v').setSr (Config.flagLayout.toBits f)).withFetchWord 16 word

/-- Flags written `Z N C V`, as the vectors write them. -/
def znc (z n c v : Bool) : Flags := { zero := z, negative := n, carry := c, overflow := v }

/-- No flag set. -/
def noFlags : Flags := znc false false false false

/-- What one step shows: a register, the flags, `pc`, `halted`, the cycle count. -/
def shows (r : Nat) (o : Host.Outcome State Fault Refusal) : Option (Word × Flags × Word × Bool × Nat) :=
  match o with
  | .next t => some (t.readGp r, t.flags, t.pc, t.halted, t.cycles)
  | .fault _ => none
  | .refused _ => none

/-- What one step shows of two bytes of memory. -/
def showsBytes (a : Nat) (o : Host.Outcome State Fault Refusal) : Option (Byte × Byte) :=
  match o with
  | .next t => some (t.mem.read a, t.mem.read (a + 1))
  | .fault _ => none
  | .refused _ => none

/-! ### The well-formedness check refuses the ill-formed terms (R70) -/

theorem test_wellFormed_refuses_bne_call_word : (Instr.bne 15 0x00).WellFormed = false := by decide
theorem test_wellFormed_refuses_bne_pop_word : (Instr.bne 15 0x3F).WellFormed = false := by decide
theorem test_wellFormed_refuses_bne_halt_word : (Instr.bne 15 0xFF).WellFormed = false := by decide
theorem test_wellFormed_admits_bne_borders :
    (Instr.bne 15 0x40).WellFormed = true ∧ (Instr.bne 15 0xFE).WellFormed = true ∧
    (Instr.bne 14 0x00).WellFormed = true := by decide

/-! ### Each constructor's word, bit by bit (R62) -/

theorem test_decode_halt : decodeWord 0b1111111111111111 = some .halt := by decide
theorem test_decode_call : decodeWord 0b1111111100001001 = some (.call 0b1001) := by decide
theorem test_decode_ret : decodeWord 0b1111111100011010 = some (.ret 0b1010) := by decide
theorem test_decode_push : decodeWord 0b1111111100101111 = some (.push 0b1111) := by decide
theorem test_decode_pop : decodeWord 0b1111111100110000 = some (.pop 0b0000) := by decide
theorem test_decode_bne : decodeWord 0b1111001111111101 = some (.bne 0b0011 0b11111101) := by decide
theorem test_decode_nop : decodeWord 0b0000101010111100 = some (.nop 0b101010111100) := by decide
theorem test_decode_add : decodeWord 0b0001001100010010 = some (.add 0b0011 0b0001 0b0010) := by decide
theorem test_decode_addi : decodeWord 0b0010000100000001 = some (.addi 0b0001 0b00000001) := by decide
theorem test_decode_sub : decodeWord 0b0011001100100001 = some (.sub 0b0011 0b0010 0b0001) := by decide
theorem test_decode_and : decodeWord 0b0100001100010010 = some (.and 0b0011 0b0001 0b0010) := by decide
theorem test_decode_or : decodeWord 0b0101001100010010 = some (.or 0b0011 0b0001 0b0010) := by decide
theorem test_decode_xor : decodeWord 0b0110001100010010 = some (.xor 0b0011 0b0001 0b0010) := by decide
theorem test_decode_not : decodeWord 0b0111101010110101 = some (.not 0b1010 0b1011 0b0101) := by decide
theorem test_decode_shl : decodeWord 0b1000001100010010 = some (.shl 0b0011 0b0001 0b0010) := by decide
theorem test_decode_shr : decodeWord 0b1001001100010010 = some (.shr 0b0011 0b0001 0b0010) := by decide
theorem test_decode_load : decodeWord 0b1010000100100011 = some (.load 0b0001 0b0010 0b0011) := by decide
theorem test_decode_store : decodeWord 0b1011001000010011 = some (.store 0b0010 0b0001 0b0011) := by decide
theorem test_decode_loadi : decodeWord 0b1100000100000101 = some (.loadi 0b0001 0b00000101) := by decide
theorem test_decode_jmp : decodeWord 0b1101000100100011 = some (.jmp 0b000100100011) := by decide
theorem test_decode_beq : decodeWord 0b1110111111111111 = some (.beq 0b1111 0b11111111) := by decide

/-- The bytes of a word, low byte first, as the host's table asks for them. -/
theorem test_decodeTableWord_shr : decodeTableWord 16 0x9312 = some (.shr 3 1 2) := by decide

/-! ### One step of each instruction (spec/95_test_vectors.md part 3) -/

theorem test_add_carry_and_zero :
    shows 3 (step (machineAt 0x0100 0x1312 1 0xFFFF 2 0x0001 noFlags)) =
      some (0x0000, znc true false true false, 0x0102, false, 1) := by decide
theorem test_add_to_register_zero_writes_flags :
    shows 0 (step (machineAt 0x0100 0x1012 1 0x0005 2 0x0003 (znc true true true false))) =
      some (0x0000, noFlags, 0x0102, false, 1) := by decide
theorem test_addi_zero_extends :
    shows 1 (step (machineAt 0x0100 0x21FF 1 0x0001 0 0 noFlags)) =
      some (0x0100, noFlags, 0x0102, false, 1) := by decide
theorem test_addi_carry :
    shows 1 (step (machineAt 0x0100 0x21FF 1 0xFF01 0 0 noFlags)) =
      some (0x0000, znc true false true false, 0x0102, false, 1) := by decide
theorem test_sub_keeps_carry :
    shows 3 (step (machineAt 0x0100 0x3321 2 0x000A 1 0x000A (znc false false true false))) =
      some (0x0000, znc true false true false, 0x0102, false, 1) := by decide
theorem test_sub_wraps :
    shows 3 (step (machineAt 0x0100 0x3321 2 0x0000 1 0x0001 noFlags)) =
      some (0xFFFF, znc false true false false, 0x0102, false, 1) := by decide
theorem test_and :
    shows 3 (step (machineAt 0x0100 0x4312 1 0xF0F0 2 0x0FF0 noFlags)) =
      some (0x00F0, noFlags, 0x0102, false, 1) := by decide
theorem test_or :
    shows 3 (step (machineAt 0x0100 0x5312 1 0xF0F0 2 0x0FF0 noFlags)) =
      some (0xFFF0, znc false true false false, 0x0102, false, 1) := by decide
theorem test_xor_keeps_carry :
    shows 3 (step (machineAt 0x0100 0x6311 1 0xBEEF 0 0 (znc false true true false))) =
      some (0x0000, znc true false true false, 0x0102, false, 1) := by decide
theorem test_not_reads_rs :
    shows 3 (step (machineAt 0x0100 0x732F 2 0xFF80 0 0 noFlags)) =
      some (0x007F, noFlags, 0x0102, false, 1) := by decide
theorem test_shl_by_register_value :
    shows 3 (step (machineAt 0x0100 0x8322 2 0x0003 0 0 noFlags)) =
      some (0x0018, noFlags, 0x0102, false, 1) := by decide
theorem test_shl_amount_sixteen_is_zero :
    shows 3 (step (machineAt 0x0100 0x8312 1 0x0001 2 0x0010 noFlags)) =
      some (0x0001, noFlags, 0x0102, false, 1) := by decide
theorem test_shr_is_logical :
    shows 3 (step (machineAt 0x0100 0x9312 1 0x8000 2 0x0001 noFlags)) =
      some (0x4000, noFlags, 0x0102, false, 1) := by decide
theorem test_load_wraps_effective_address :
    shows 3 (step ((machineAt 0x0100 0xA31F 1 0xFFF0 0 0 noFlags).loadProgram [0x1234] 0x000E)) =
      some (0x1234, noFlags, 0x0102, false, 1) := by decide
theorem test_load_out_of_bounds_is_zero :
    shows 3 (step ((machineAt 0x0100 0xA310 1 0xFFFF 3 0x7777 noFlags).loadProgram [0xAB00] 0xFFFE)) =
      some (0x0000, noFlags, 0x0102, false, 1) := by decide
theorem test_store_low_byte_first :
    showsBytes 0x0301 (step (machineAt 0x0100 0xB210 1 0x0301 2 0xBEEF noFlags)) = some (0xEF, 0xBE) := by decide
theorem test_store_out_of_bounds_does_nothing :
    showsBytes 0xFFFF (step (machineAt 0x0100 0xB210 1 0xFFFF 2 0xBEEF noFlags)) = some (0x00, 0x00) := by decide
theorem test_loadi_sign_extends :
    shows 1 (step (machineAt 0x0100 0xC180 0 0 0 0 (znc true false true false))) =
      some (0xFF80, znc true false true false, 0x0102, false, 1) := by decide
theorem test_jmp_to_odd_address :
    shows 1 (step (machineAt 0x0100 0xDFFF 0 0 0 0 noFlags)) = some (0, noFlags, 0x0FFF, false, 1) := by decide
theorem test_beq_wraps_above :
    shows 1 (step (machineAt 0xFFFC 0xE001 0 0 0 0 noFlags)) = some (0, noFlags, 0x0000, false, 1) := by decide
theorem test_beq_not_taken :
    shows 1 (step (machineAt 0x0100 0xE105 1 1 0 0 noFlags)) = some (1, noFlags, 0x0102, false, 1) := by decide
theorem test_bne_back :
    shows 3 (step (machineAt 0x0008 0xF3FD 3 9 0 0 noFlags)) = some (9, noFlags, 0x0004, false, 1) := by decide
theorem test_bne_register_zero_never_taken :
    shows 0 (step (machineAt 0x0008 0xF0FD 0 0 0 0 noFlags)) = some (0, noFlags, 0x000A, false, 1) := by decide
theorem test_nop_ignores_its_bits :
    shows 1 (step (machineAt 0x0100 0x0ABC 1 7 0 0 (znc true true true false))) =
      some (7, znc true true true false, 0x0102, false, 1) := by decide
theorem test_halt :
    shows 1 (step (machineAt 0x0006 0xFFFF 0 0 0 0 noFlags)) = some (0, noFlags, 0x0008, true, 1) := by decide
theorem test_call_is_no_op :
    shows 15 (step (machineAt 0x0010 0xFF00 15 1 0 0 noFlags)) = some (1, noFlags, 0x0012, false, 1) := by decide
theorem test_ret_is_no_op :
    shows 15 (step (machineAt 0x0010 0xFF1A 15 1 0 0 noFlags)) = some (1, noFlags, 0x0012, false, 1) := by decide
theorem test_push_is_no_op :
    shows 15 (step (machineAt 0x0010 0xFF2F 15 1 0 0 noFlags)) = some (1, noFlags, 0x0012, false, 1) := by decide
theorem test_pop_is_no_op :
    shows 15 (step (machineAt 0x0010 0xFF3F 15 1 0 0 noFlags)) = some (1, noFlags, 0x0012, false, 1) := by decide

/-! ### Fetch, privilege and the host (spec/95_test_vectors.md part 4) -/

/-- Vector M6. -/
theorem test_out_of_bounds_fetch_halts :
    shows 1 (step ((State.reset.setPc 0xFFFF).loadProgram [0x1200] 0xFFFE)) =
      some (0, noFlags, 0x0001, true, 1) := by decide
/-- Vector M9. -/
theorem test_load_program_truncates :
    (State.reset.loadProgram [0x1111, 0x2222] 0xFFFD).mem = [(0xFFFD, 0x11), (0xFFFE, 0x11)] := by decide
/-- Vector T4. -/
theorem test_enter_kernel_mode_from_user :
    (State.reset.dropPrivilege .user).enterKernelMode = State.reset := by decide
/-- Vector T5. -/
theorem test_enter_kernel_mode_from_supervisor_is_no_op :
    (State.reset.dropPrivilege .supervisor).enterKernelMode = State.reset.dropPrivilege .supervisor := by decide
/-- Vector T8. -/
theorem test_exception_entry_from_user :
    ((State.reset.dropPrivilege .user).setPc 0x0004).raisePrivilegeOnException =
      (State.reset.setPc 0x0010).setSavedPc 0x0004 := by decide
/-- Vectors G4 to G6. -/
theorem test_lookup_names :
    (State.reset.writeGp 15 0xFFFF).lookup "rf" = some 0xFFFF ∧ State.reset.lookup "sP" = some 0xFFFE ∧
    State.reset.lookup "R10" = none ∧ State.reset.lookup "RG" = none ∧ State.reset.lookup "XX" = none := by decide
/-- `run` on a halted machine takes no step and reports no failure (scenario P6, step l). -/
theorem test_run_of_halted :
    run 100 (State.reset.setHalted true) = (State.reset.setHalted true, .consumed 0) := by decide
/-- The flag unit's word with the default positions. -/
theorem test_flag_bits :
    Config.flagLayout.toBits (znc true false true false) = 0x0005 ∧
    Config.flagLayout.fromBits 0xFFF5 = znc true false true false := by decide

/-! ### Witnesses: concrete cases that meet the hypotheses of the statements -/

theorem witness_DecodeEncodeRoundTrip :
    (Instr.bne 15 0x40).WellFormed = true ∧ (Instr.add 15 0 15).WellFormed = true := by decide

/-- A word for each clause, at the borders of the Extended family and of each nibble. -/
theorem witness_DecoderFollowsPrecedence :
    (0x0000 : Word).toNat = 0x0000 ∧ (0xFFFF : Word).toNat = 0xFFFF ∧
    (0xFF0F : Word).toNat / 16 % 256 = 0xF0 ∧ (0xFF10 : Word).toNat / 16 % 256 = 0xF1 ∧
    (0xFF2F : Word).toNat / 16 % 256 = 0xF2 ∧ (0xFF30 : Word).toNat / 16 % 256 = 0xF3 ∧
    (0xFF40 : Word).toNat / 4096 = 0xF ∧ ¬((0xFF40 : Word).toNat / 16 % 256 ≤ 0xF3) ∧
    ¬(0xF0 ≤ (0xFEFF : Word).toNat / 16 % 256) ∧ (0x0FFF : Word).toNat / 4096 = 0x0 ∧
    (0x1000 : Word).toNat / 4096 = 0x1 ∧ (0x2FFF : Word).toNat / 4096 = 0x2 ∧ (0x3000 : Word).toNat / 4096 = 0x3 ∧
    (0x4FFF : Word).toNat / 4096 = 0x4 ∧ (0x5000 : Word).toNat / 4096 = 0x5 ∧ (0x6FFF : Word).toNat / 4096 = 0x6 ∧
    (0x7000 : Word).toNat / 4096 = 0x7 ∧ (0x8FFF : Word).toNat / 4096 = 0x8 ∧ (0x9000 : Word).toNat / 4096 = 0x9 ∧
    (0xAFFF : Word).toNat / 4096 = 0xA ∧ (0xB000 : Word).toNat / 4096 = 0xB ∧ (0xCFFF : Word).toNat / 4096 = 0xC ∧
    (0xD000 : Word).toNat / 4096 = 0xD ∧ (0xEFFF : Word).toNat / 4096 = 0xE := by decide

theorem witness_BneOnRegisterFifteenLosesEncodings :
    decodeWord 0xFF40 = some (.bne 15 0x40) ∧ decodeWord 0xFFFE = some (.bne 15 0xFE) ∧
    decodeWord 0xFE00 = some (.bne 14 0x00) ∧ (0x3F : BitVec 8).toNat < 0x40 ∧
    (Instr.beq 15 0xFF).mnemonic ≠ .bne := by decide

/-- A running machine whose `pc` is the last address but one a word fits at. -/
def runningAtTop : State := (State.reset.setPc 0xFFFE).withFetchWord 16 0x1312

theorem witness_StepRunsTheInstructionAtPc :
    runningAtTop.halted = false ∧ runningAtTop.pc ≠ 0xFFFF ∧
    decodeTableWord 16 0x1312 = some (.add 3 1 2) ∧
    [runningAtTop.mem.read runningAtTop.pc.toNat, runningAtTop.mem.read (runningAtTop.pc.toNat + 1)] =
      encodeBytes (.add 3 1 2) := by decide

theorem witness_StepRunsTheInstructionAtPc_decodes :
    decodeBytes [runningAtTop.mem.read runningAtTop.pc.toNat, runningAtTop.mem.read (runningAtTop.pc.toNat + 1)] =
      .ok (.add 3 1 2, []) := rfl

theorem witness_RunningStepSucceeds : State.reset.halted = false := by decide

theorem witness_HaltedStepFailsAndChangesNothing : (State.reset.setHalted true).halted = true := by decide

theorem witness_StepFailsOnlyWhenHalted : step (State.reset.setHalted true) = .fault .halted := rfl

theorem witness_OutOfBoundsFetchHalts :
    (State.reset.setPc 0xFFFF).pc = 0xFFFF ∧ (State.reset.setPc 0xFFFF).halted = false := by decide

/-- A step that halts and one that does not. -/
theorem witness_HaltedOnlyByTheHaltWord :
    (∃ t, step (State.reset.withFetchWord 16 0xFFFF) = .next t ∧ t.halted = true) ∧
    (∃ t, step State.reset = .next t ∧ t.halted = false) := ⟨⟨_, rfl, by decide⟩, ⟨_, rfl, by decide⟩⟩

theorem witness_CyclesCountCompletedSteps :
    (∃ t, step State.reset = .next t) ∧ HostOp.raisePrivilegeOnException ≠ .step ∧
    (∀ n, HostOp.raisePrivilegeOnException ≠ .run n) ∧ HostOp.raisePrivilegeOnException ≠ .reset :=
  ⟨⟨_, rfl⟩, nofun, nofun, nofun⟩

theorem witness_PcAdvancesUnlessControlTransfers :
    decodeWord (State.reset.mem.fetch State.reset.pc) = some (.nop 0) ∧ transfersControl (.nop 0) = false ∧
    (∃ t, step State.reset = .next t) := ⟨by decide, rfl, ⟨_, rfl⟩⟩

theorem witness_InstructionsTouchOnlyWhatTheyName :
    (∃ t, exec (.loadi 1 0x80) State.reset = .next t) ∧ destination (.loadi 1 0x80) ≠ some 2 ∧
    (Instr.loadi 1 0x80).mnemonic ≠ .store ∧ (Instr.loadi 1 0x80).mnemonic ≠ .halt ∧
    transfersControl (.loadi 1 0x80) = false ∧ writesZeroNegative (.loadi 1 0x80) = false :=
  ⟨⟨_, rfl⟩, by decide, by decide, by decide, rfl, rfl⟩

/-- Its clauses on STORE: at 0xFFFF nothing is stored, and at 0xFFFE the two last bytes are. -/
theorem witness_InstructionsTouchOnlyWhatTheyName_store :
    effectiveAddress ((State.reset.writeGp 1 0xFFFF).reg 1) 0 = 0xFFFF ∧
    exec (.store 1 1 0) (State.reset.writeGp 1 0xFFFF) = .next (State.reset.writeGp 1 0xFFFF) ∧
    exec (.store 1 1 0) (State.reset.writeGp 1 0xFFFE) =
      .next ((State.reset.writeGp 1 0xFFFE).setMem [(0xFFFE, 0xFE), (0xFFFF, 0xFF)]) := ⟨by decide, rfl, rfl⟩

theorem witness_FlagsChangeOnlyByTheirWriters :
    (∃ t, exec (.sub 1 2 3) State.reset = .next t) ∧ writesCarry (.sub 1 2 3) = false ∧
    (∃ t, exec (.load 1 2 3) State.reset = .next t) ∧ writesZeroNegative (.load 1 2 3) = false :=
  ⟨⟨_, rfl⟩, rfl, ⟨_, rfl⟩, rfl⟩

/-- Two states that differ in ring, stack pointers, flags and cycle count, and agree on what a program sees. -/
theorem witness_ProgramCannotSeePrivilegedState :
    SameToProgram State.reset (((State.reset.dropPrivilege .user).setSr 0x000F).addCycle) ∧
    (∃ t, step State.reset = .next t) :=
  ⟨⟨fun _ => rfl, rfl, rfl, fun _ => rfl⟩, ⟨_, rfl⟩⟩

/-- The indices at the borders of the three clauses: 0, 1, 15, 16. -/
theorem witness_RegisterFileAccess :
    (State.reset.writeGp 1 7).readGp 1 = 7 ∧ (State.reset.writeGp 15 7).readGp 15 = 7 ∧
    State.reset.writeGp 0 7 = State.reset ∧ State.reset.writeGp 16 7 = State.reset := by decide

/-- The last address a word fits at, and the one it does not. -/
theorem witness_MemRead_MemWrite_Fetch :
    (0xFFFE : Word) ≠ 0xFFFF ∧ Memory.readWord [(0xFFFE, 0x01), (0xFFFF, 0x02)] 0xFFFE = 0x0201 ∧
    Memory.readWord [(0xFFFF, 0xAB)] 0xFFFF = 0x0000 ∧ Memory.fetch [(0xFFFF, 0xAB)] 0xFFFF = 0xFFFF ∧
    Memory.writeWord [(0xFFFF, 0xAB)] 0xFFFF 0xBEEF = [(0xFFFF, 0xAB)] := by decide

/-- STORE R0 at the word after itself. -/
def overwritesNext : State := State.reset.withFetchWord 16 0xB001

theorem witness_StoreIsSeenByTheNextFetch :
    decodeWord (overwritesNext.mem.fetch overwritesNext.pc) = some (.store 0 0 1) ∧
    effectiveAddress (overwritesNext.reg 0) 1 = overwritesNext.pc + 2 ∧ overwritesNext.pc + 2 ≠ 0xFFFF ∧
    (∃ t, step overwritesNext = .next t) := ⟨by decide, by decide, by decide, ⟨_, rfl⟩⟩

/-- The last address in bounds and the one out of bounds, of the three accesses. -/
theorem witness_MemReadIsLittleEndianWithinBounds :
    (0xFFFE : Word) ≠ 0xFFFF ∧ Memory.readWord [(0xFFFE, 0x34), (0xFFFF, 0x12)] 0xFFFE = 0x1234 ∧
    Memory.readWord [(0, 0x77), (0xFFFF, 0x12)] 0xFFFF = 0 := by decide

theorem witness_MemWriteIsLittleEndianWithinBounds :
    Memory.writeWord [(0, 0x77)] 0xFFFE 0x1234 = [(0, 0x77), (0xFFFE, 0x34), (0xFFFF, 0x12)] ∧
    Memory.writeWord [(0, 0x77)] 0xFFFF 0x1234 = [(0, 0x77)] := by decide

theorem witness_FetchIsMemReadOrHalt :
    Memory.fetch [(0xFFFE, 0x34), (0xFFFF, 0x12)] 0xFFFE = 0x1234 ∧ Memory.fetch [(0xFFFF, 0x12)] 0xFFFF = 0xFFFF := by
  decide

/-- A run that ends at HALT before its budget, and one that spends it. -/
theorem witness_RunStopsAtHaltOrBudget :
    (run 3 (State.reset.withFetchWord 16 0xFFFF)).2 = .consumed 1 ∧
    (run 3 (State.reset.withFetchWord 16 0xFFFF)).1.halted = true ∧
    (run 3 State.reset).2 = .consumed 3 := by decide

/-- A word that fits, one that does not, and an address no word goes to. -/
theorem witness_LoadProgramPlacesWords :
    ([0x1111, 0x2222] : List Word)[0]? = some 0x1111 ∧ 0xFFFD + 2 * 0 + 1 ≤ 0xFFFF ∧ ¬(0xFFFD + 2 * 1 + 1 ≤ 0xFFFF) ∧
    (State.reset.loadProgram [0x1111, 0x2222] 0xFFFD).mem.read 0xFFFF = State.reset.mem.read 0xFFFF := by decide

/-- A STORE in bounds and one out of bounds. -/
theorem witness_StoreResultFrame :
    effectiveAddress ((State.reset.writeGp 1 0xFFFF).reg 1) 0 = 0xFFFF ∧
    effectiveAddress ((State.reset.writeGp 1 0xFFFE).reg 1) 0 = 0xFFFE := by decide

/-- Both sides of the encodable range of BNE on register 15, and its neighbour. -/
theorem witness_BranchTargetFrame :
    decodeWord (encode (.bne 15 0x40)) = some (.bne 15 0x40) ∧ decodeWord (encode (.bne 15 0x3F)) = some (.pop 0xF) ∧
    decodeWord (encode (.bne 15 0xFE)) = some (.bne 15 0xFE) ∧ decodeWord (encode (.bne 15 0xFF)) = some .halt ∧
    decodeWord (encode (.bne 14 0xFF)) = some (.bne 14 0xFF) := by decide

/-- HALT fetched from memory and by the out-of-bounds fetch. -/
theorem witness_HaltStopsTheEngine :
    (State.reset.withFetchWord 16 0xFFFF).halted = false ∧
    (State.reset.withFetchWord 16 0xFFFF).mem.fetch (State.reset.withFetchWord 16 0xFFFF).pc = 0xFFFF ∧
    (State.reset.setPc 0xFFFF).mem.fetch (State.reset.setPc 0xFFFF).pc = 0xFFFF := by decide

/-- The first and the last word of the Extended family. -/
theorem witness_ExtendedInstructionsAreNoOps :
    (State.reset.withFetchWord 16 0xFF00).mem.fetch 0 = 0xFF00 ∧
    (State.reset.withFetchWord 16 0xFF3F).mem.fetch 0 = 0xFF3F ∧
    (State.reset.withFetchWord 16 0xFF00).halted = false := by decide

theorem witness_ExceptionEntrySavesAndGoesToHandler :
    State.reset.ring = .kernel ∧ State.reset.sp = State.reset.ksp ∧
    (State.reset.dropPrivilege .supervisor).ring = .supervisor ∧
    (State.reset.dropPrivilege .user).ring = .user := by decide

theorem witness_NestedEntryLosesTheFirstContext :
    ∃ t, step (State.reset.dropPrivilege .user).raisePrivilegeOnException = .next t := ⟨_, rfl⟩

theorem witness_EnterKernelModeActsFromUserOnly :
    (State.reset.dropPrivilege .user).ring = .user ∧ (State.reset.dropPrivilege .supervisor).ring ≠ .user := by decide

theorem witness_DropPrivilegeBanksAndLoads :
    State.reset.ring = .kernel ∧ State.reset.sp = State.reset.bank State.reset.ring ∧
    Ring.user ≠ State.reset.ring := by decide

theorem witness_OnlyResetLeavesHalted :
    (State.reset.setHalted true).halted = true ∧ HostOp.raisePrivilegeOnException ≠ .reset := by decide

theorem witness_PrivilegedStateWrittenByTransitionsOnly :
    HostOp.writeGp 1 7 ≠ .reset ∧ HostOp.writeGp 1 7 ≠ .raisePrivilegeOnException ∧
    HostOp.writeGp 1 7 ≠ .enterKernelMode ∧ (∀ r, HostOp.writeGp 1 7 ≠ .dropPrivilege r) ∧
    (∃ t, (perform [] (.writeGp 1 7) State.reset).1 = t) := ⟨nofun, nofun, nofun, nofun, ⟨_, rfl⟩⟩

/-- A name for each clause that finds one, in either case of letter. -/
theorem witness_LookupByName :
    "pC".toList.map Char.toUpper = ['P', 'C'] ∧ "Sp".toList.map Char.toUpper = ['S', 'P'] ∧
    "lr".toList.map Char.toUpper = ['L', 'R'] ∧ "SR".toList.map Char.toUpper = ['S', 'R'] ∧
    "rf".toList.map Char.toUpper = ['R', "0123456789ABCDEF".toList.getD 15 '0'] ∧
    "R0".toList.map Char.toUpper = ['R', "0123456789ABCDEF".toList.getD 0 '0'] := by decide

/-- The name meets the hypotheses of the clause "not found". -/
abbrev Unlisted (name : String) : Prop :=
  name.toList.map Char.toUpper ∉ [['P', 'C'], ['S', 'P'], ['L', 'R'], ['S', 'R']] ∧
  ∀ r : Reg, name.toList.map Char.toUpper ≠ ['R', "0123456789ABCDEF".toList.getD r.val '0']

/-- Names that are not found (spec/95_test_vectors.md G5, and a bank). -/
theorem witness_LookupByName_notFound :
    Unlisted "XX" ∧ Unlisted "RG" ∧ Unlisted "KSP" ∧ Unlisted "R10" :=
  ⟨by decide, by decide, by decide, by decide⟩

theorem witness_ResetValues : ∃ t, perform [(0x40, 0x01)] .reset (State.reset.setHalted true) = (t, .done) := ⟨_, rfl⟩

theorem witness_FlagUnitRoundTrip :
    Config.flagLayout.Distinct ∧ ({ zBit := 15, nBit := 0, cBit := 8, vBit := 7 } : FlagLayout).Distinct ∧
    (∃ t, exec (.add 1 2 3) State.reset = .next t) ∧
    writesCarry (.sub 1 2 3) = false ∧ (∃ t, exec (.sub 1 2 3) State.reset = .next t) ∧
    writesZeroNegative (.load 1 2 3) = false ∧ (∃ t, exec (.load 1 2 3) State.reset = .next t) :=
  ⟨by decide, by decide, ⟨_, rfl⟩, rfl, ⟨_, rfl⟩, rfl, ⟨_, rfl⟩⟩

theorem witness_InvariantHoldsAtReset :
    Memory.wf [] = true ∧ Memory.wf [(0x0000, 0x05), (0xFFFF, 0xC1)] = true ∧ Memory.wf [(1, 5), (0, 5)] = false ∧
    Memory.wf [(0x10000, 5)] = false ∧ Memory.wf [(0, 0)] = false := by decide

/-- A machine in the User ring with a program in memory meets the invariant, steps, and meets it with a canonical image. -/
def userMachine : State := (State.reset.dropPrivilege .user).withFetchWord 16 0xB001

theorem witness_StepKeepsInvariant : userMachine.Inv ∧ (∃ t, step userMachine = .next t) :=
  ⟨⟨by decide, by decide, by decide, by decide, by decide, by decide, by decide, by decide⟩, ⟨_, rfl⟩⟩

theorem witness_HostOperationKeepsInvariant : Memory.wf [(0x40, 0x01)] = true ∧ userMachine.Inv :=
  ⟨by decide, witness_StepKeepsInvariant.1⟩

theorem witness_ReachableStackPointersAreBanked :
    ∃ t, performAll [] [.dropPrivilege .user, .step, .raisePrivilegeOnException] (State.resetWith []) = t ∧
      t.ring = .kernel ∧ t.pc = 0x0010 := ⟨_, rfl, by decide, by decide⟩

end Sys2Proof.Tests
end

section
/-! PROOFS. The effect of an instruction as data: each meaning is one of seven updates of the state, so that a fact about
all instructions is proved by cases on seven updates and not on 21 instructions. -/

namespace Sys2Proof.Machine

/-- The updates of the state an instruction's meaning can be, with the values it has computed. -/
inductive Effect where
  /-- Nothing changes. -/
  | keep
  /-- A register is written and no flag. -/
  | writeReg (rd : Reg) (v : Word)
  /-- The end of an instruction of class ZN. -/
  | finishZN (rd : Reg) (r : Word)
  /-- The end of an instruction of class ZNC. -/
  | finishZNC (rd : Reg) (sum : Nat)
  /-- A word is stored. -/
  | storeWord (a v : Word)
  /-- Control goes to an address. -/
  | jump (target : Word)
  /-- The engine halts. -/
  | halt

namespace Effect

/-- The state after an update. -/
def apply : Effect → State → State
  | keep, s             => s
  | writeReg rd v, s    => s.setReg rd v
  | finishZN rd r, s    => s.finishZN rd r
  | finishZNC rd sum, s => s.finishZNC rd sum
  | storeWord a v, s    => s.setMem (s.mem.writeWord a v)
  | jump target, s      => s.setPc target
  | halt, s             => s.setHalted true

/-- The general register an update writes. -/
def dest : Effect → Option Reg
  | writeReg rd _ | finishZN rd _ | finishZNC rd _ => some rd
  | keep | storeWord _ _ | jump _ | halt => none

/-- The update writes C. -/
def setsCarry : Effect → Bool
  | finishZNC _ _ => true
  | keep | writeReg _ _ | finishZN _ _ | storeWord _ _ | jump _ | halt => false

/-- The update writes `sr`. -/
def setsFlags : Effect → Bool
  | finishZN _ _ | finishZNC _ _ => true
  | keep | writeReg _ _ | storeWord _ _ | jump _ | halt => false

/-- The update writes `pc`. -/
def jumps : Effect → Bool
  | jump _ => true
  | keep | writeReg _ _ | finishZN _ _ | finishZNC _ _ | storeWord _ _ | halt => false

/-- The update writes `halted`. -/
def halts : Effect → Bool
  | halt => true
  | keep | writeReg _ _ | finishZN _ _ | finishZNC _ _ | storeWord _ _ | jump _ => false

end Effect

/-- The update an instruction is in a state. -/
def effectOf (i : Instr) (s : State) : Effect :=
  match i with
  | .halt => .halt
  | .call _ | .ret _ | .push _ | .pop _ | .nop _ => .keep
  | .add rd rs rt       => .finishZNC rd (wideSum (s.reg rs) (s.reg rt))
  | .addi rd imm8       => .finishZNC rd (wideSum (s.reg rd) (zeroExtendImm imm8))
  | .sub rd rs rt       => .finishZN rd (s.reg rs - s.reg rt)
  | .and rd rs rt       => .finishZN rd (s.reg rs &&& s.reg rt)
  | .or rd rs rt        => .finishZN rd (s.reg rs ||| s.reg rt)
  | .xor rd rs rt       => .finishZN rd (s.reg rs ^^^ s.reg rt)
  | .not rd rs _        => .finishZN rd (~~~(s.reg rs))
  | .shl rd rs rt       => .finishZN rd (s.reg rs <<< shiftAmount (s.reg rt))
  | .shr rd rs rt       => .finishZN rd (s.reg rs >>> shiftAmount (s.reg rt))
  | .load rd rs offset  => .writeReg rd (s.mem.readWord (effectiveAddress (s.reg rs) offset))
  | .store rd rs offset => .storeWord (effectiveAddress (s.reg rs) offset) (s.reg rd)
  | .loadi rd imm8      => .writeReg rd (signExtendImm imm8)
  | .jmp addr12         => .jump (jumpTarget addr12)
  | .beq rd imm8        => .jump (if s.reg rd == 0 then branchTarget s.pc imm8 else s.pc)
  | .bne rd imm8        => .jump (if s.reg rd != 0 then branchTarget s.pc imm8 else s.pc)

/-! ### The effect is the meaning -/

/-- A meaning answers the state after its effect, whatever the instruction: a branch not taken is a jump to the `pc` it
stands at. -/
theorem exec_eq_effect (i : Instr) (s : State) : exec i s = .next ((effectOf i s).apply s) := by
  cases i
  case beq rd imm8 => exact congrArg _ (s.branchIf_spec _ imm8)
  case bne rd imm8 => exact congrArg _ (s.branchIf_spec _ imm8)
  all_goals rfl

theorem eq_effect_of_exec {i : Instr} {s t : State} (h : exec i s = .next t) : t = (effectOf i s).apply s := by
  rw [exec_eq_effect] at h
  exact (Host.Outcome.next.inj h).symm

/-- What the fields of an instruction say it may write is what its effect writes. -/
@[simp] theorem dest_effectOf (i : Instr) (s : State) : (effectOf i s).dest = destination i := by
  cases i <;> rfl

@[simp] theorem setsCarry_effectOf (i : Instr) (s : State) : (effectOf i s).setsCarry = writesCarry i := by
  cases i <;> rfl

@[simp] theorem setsFlags_effectOf (i : Instr) (s : State) : (effectOf i s).setsFlags = writesZeroNegative i := by
  cases i <;> rfl

@[simp] theorem jumps_effectOf (i : Instr) (s : State) : (effectOf i s).jumps = transfersControl i := by
  cases i <;> rfl

@[simp] theorem halts_effectOf (i : Instr) (s : State) : (effectOf i s).halts = (i.mnemonic == .halt) := by
  cases i <;> rfl

/-! ### What an effect leaves unchanged -/

namespace Effect

variable (u : Effect) (s : State)

theorem apply_sameSpecial : SameSpecial s (u.apply s) := by
  cases u with
  | finishZN rd r => exact (finishZN_spec s rd r).2.2.1
  | finishZNC rd sum => exact (finishZNC_spec s rd sum).2.2.1
  | _ => constructor <;> simp [apply]

theorem apply_reg {r : Reg} (h : u.dest ≠ some r) : (u.apply s).reg r = s.reg r := by
  have hne {rd : Reg} (hd : some rd ≠ some r) : r ≠ rd := fun e => hd (congrArg some e.symm)
  cases u with
  | writeReg rd v => exact (s.setReg_writesReg rd v).2 r (hne h)
  | finishZN rd v => exact (finishZN_spec s rd v).1.2 r (hne h)
  | finishZNC rd sum => exact (finishZNC_spec s rd sum).1.2 r (hne h)
  | _ => rfl

theorem apply_pc (h : u.jumps = false) : (u.apply s).pc = s.pc := by
  cases u with
  | jump target => cases h
  | finishZN rd r => exact (finishZN_spec s rd r).2.2.2.1
  | finishZNC rd sum => exact (finishZNC_spec s rd sum).2.2.2.1
  | _ => simp [apply]

theorem apply_halted (h : u.halts = false) : (u.apply s).halted = s.halted := by
  cases u with
  | halt => cases h
  | finishZN rd r => exact (finishZN_spec s rd r).2.2.2.2.1
  | finishZNC rd sum => exact (finishZNC_spec s rd sum).2.2.2.2.1
  | _ => simp [apply]

theorem apply_sr (h : u.setsFlags = false) : (u.apply s).sr = s.sr := by
  cases u with
  | finishZN rd r => cases h
  | finishZNC rd sum => cases h
  | _ => simp [apply]

/-- A bit of `sr` that is neither Z nor N, and is C only where the effect does not write C, is kept (R22, R96). -/
theorem apply_sr_bit {k : Fin Config.xlen} (hz : k ≠ Config.flagLayout.zBit) (hn : k ≠ Config.flagLayout.nBit)
    (hc : k = Config.flagLayout.cBit → u.setsCarry = false) :
    (u.apply s).sr.getLsbD k.val = s.sr.getLsbD k.val := by
  cases u with
  | finishZN rd r =>
    simp only [apply, State.finishZN, State.setSr_sr, State.setReg_sr, getLsbD_srZN, if_neg hn, if_neg hz]
  | finishZNC rd sum =>
    have hc' : k ≠ Config.flagLayout.cBit := fun e => Bool.noConfusion (hc e)
    simp only [apply, State.finishZNC, State.setSr_sr, State.setReg_sr, getLsbD_srZNC, getLsbD_srZN, if_neg hc',
      if_neg hn, if_neg hz]
  | _ => rw [apply_sr _ s rfl]

theorem apply_wf (h : s.mem.wf = true) : (u.apply s).mem.wf = true := by
  cases u with
  | storeWord a v => exact Memory.wf_writeWord a v h
  | finishZN rd r => simpa [apply, State.finishZN] using h
  | finishZNC rd sum => simpa [apply, State.finishZNC] using h
  | _ => simpa [apply] using h

end Effect

/-! ### A step as an effect -/

/-- A completed step is the effect of the fetched instruction on the state with `pc` advanced, and one cycle more. -/
theorem step_next_effect {s t : State} (h : step s = .next t) :
    s.halted = false ∧ ∃ i, decodeWord s.fetchWord = some i ∧
      t = ((effectOf i s.advancePc).apply s.advancePc).addCycle := by
  obtain ⟨hh, i, u, hi, hu, rfl⟩ := step_next_cases h
  exact ⟨hh, i, hi, by rw [eq_effect_of_exec hu]⟩

theorem step_of_effect {s : State} {i : Instr} (hh : s.halted = false) (hi : decodeWord s.fetchWord = some i) :
    step s = .next ((effectOf i s.advancePc).apply s.advancePc).addCycle := by
  rw [step_of_decode hh hi, exec_eq_effect, countCycle_next]

end Sys2Proof.Machine
end

section
/-! PROOFS. Noninterference: what a program cannot see has no influence on what it can see (R33, R170). -/

namespace Sys2Proof.Machine

namespace SameToProgram

variable {s t : State} (h : SameToProgram s t)
include h

theorem setPc (v : Word) : SameToProgram (s.setPc v) (t.setPc v) := ⟨h.regs, rfl, h.halted, h.mem⟩

theorem setHalted (b : Bool) : SameToProgram (s.setHalted b) (t.setHalted b) := ⟨h.regs, h.pc, rfl, h.mem⟩

theorem setReg (rd : Reg) (v : Word) : SameToProgram (s.setReg rd v) (t.setReg rd v) where
  regs r := by rw [State.reg_setReg, State.reg_setReg, h.regs r]
  pc     := by simp [h.pc]
  halted := by simp [h.halted]
  mem a  := by simp [h.mem a]

/-- Whatever the two states hold in `sr`, before and after. -/
theorem setSr (v w : Word) : SameToProgram (s.setSr v) (t.setSr w) := ⟨h.regs, h.pc, h.halted, h.mem⟩

theorem writeWord (a v : Word) :
    SameToProgram (s.setMem (s.mem.writeWord a v)) (t.setMem (t.mem.writeWord a v)) where
  regs   := h.regs
  pc     := h.pc
  halted := h.halted
  mem b  := by simp only [State.setMem_mem, Memory.read_writeWord, h.mem b]

theorem addCycle : SameToProgram s.addCycle t.addCycle := ⟨h.regs, h.pc, h.halted, h.mem⟩

theorem advancePc : SameToProgram s.advancePc t.advancePc := by
  have ht : t.advancePc = t.setPc (s.pc + Config.instrBytes) := by rw [State.advancePc, h.pc]
  rw [ht]
  exact h.setPc _

theorem fetchWord_eq : t.fetchWord = s.fetchWord := by
  rw [State.fetchWord, h.pc, Memory.fetch_congr h.mem, State.fetchWord]

/-- The effect of an instruction depends on what a program sees only. -/
theorem effectOf_eq (i : Instr) : effectOf i t = effectOf i s := by
  have hreg (r : Reg) : t.reg r = s.reg r := h.regs r
  have hmem (a : Word) : t.mem.readWord a = s.mem.readWord a := Memory.readWord_congr h.mem a
  cases i <;> simp only [effectOf, hreg, hmem, h.pc]

/-- The same effect on two states a program cannot tell apart leaves two such states. -/
theorem apply (u : Effect) : SameToProgram (u.apply s) (u.apply t) := by
  cases u with
  | keep => exact h
  | writeReg rd v => exact h.setReg rd v
  | finishZN rd r => exact (h.setReg rd r).setSr _ _
  | finishZNC rd sum => exact (h.setReg rd _).setSr _ _
  | storeWord a v => exact h.writeWord a v
  | jump target => exact h.setPc target
  | halt => exact h.setHalted true

end SameToProgram

/-- Settles O20: the two steps fetch the same word, and its instruction has the same effect on both states. -/
theorem programCannotSeePrivilegedState : Obligations.ProgramCannotSeePrivilegedState := by
  intro s₁ s₂ t₁ h hstep
  obtain ⟨hh, i, hi, rfl⟩ := step_next_effect hstep
  have hstep₂ := step_of_effect (h.halted.trans hh) (h.fetchWord_eq ▸ hi)
  rw [h.advancePc.effectOf_eq] at hstep₂
  exact ⟨_, hstep₂, (h.advancePc.apply _).addCycle⟩

end Sys2Proof.Machine
end

section
/-! PROOFS. What no instruction and no step touches (R13, R15, R16, R19, R21 to R25, R96, R102). -/

namespace Sys2Proof.Machine

/-! ### Memory -/

theorem Memory.writeWord_last (m : Memory) (v : Word) : m.writeWord 0xFFFF v = m := rfl

theorem Memory.read_writeWord_other (m : Memory) {a v : Word} {b : Nat} (h : b ≠ a.toNat) (h' : b ≠ a.toNat + 1) :
    (m.writeWord a v).read b = m.read b := by
  rw [Memory.read_writeWord, if_neg (fun hb => h hb.2), if_neg (fun hb => h' hb.2)]

theorem exec_mem_of_not_store {i : Instr} {s t : State} (h : exec i s = .next t) (hi : i.mnemonic ≠ .store) :
    t.mem = s.mem := by
  rw [exec_mem h]
  split
  · exact absurd rfl hi
  · rfl

/-! ### The status register -/

theorem exec_sr_bit {i : Instr} {s t : State} (h : exec i s = .next t) {k : Fin Config.xlen}
    (hz : k ≠ Config.flagLayout.zBit) (hn : k ≠ Config.flagLayout.nBit)
    (hc : k = Config.flagLayout.cBit → writesCarry i = false) : t.sr.getLsbD k.val = s.sr.getLsbD k.val := by
  rw [eq_effect_of_exec h]
  exact (effectOf i s).apply_sr_bit s hz hn (by simpa using hc)

theorem exec_sr {i : Instr} {s t : State} (h : exec i s = .next t) (hi : writesZeroNegative i = false) :
    t.sr = s.sr := by
  rw [eq_effect_of_exec h]
  exact (effectOf i s).apply_sr s (by simpa using hi)

theorem exec_sameOtherSrBits {i : Instr} {s t : State} (h : exec i s = .next t) : SameOtherSrBits s t :=
  fun _ hz hn hc _ => exec_sr_bit h hz hn (fun e => absurd e hc)

/-- Settles O19: each flag is a bit of `sr` that `exec_sr_bit` keeps. -/
theorem flagsChangeOnlyByTheirWriters : Obligations.FlagsChangeOnlyByTheirWriters := fun i s t h =>
  ⟨exec_sr_bit (k := Config.flagLayout.vBit) h (by decide) (by decide) (fun e => absurd e (by decide)),
    exec_sameOtherSrBits h,
    fun hc => exec_sr_bit (k := Config.flagLayout.cBit) h (by decide) (by decide) (fun _ => hc),
    exec_sr h⟩

/-- Settles O18, one lemma for each part of the state. -/
theorem instructionsTouchOnlyWhatTheyName : Obligations.InstructionsTouchOnlyWhatTheyName := by
  intro i s t h
  have ht := eq_effect_of_exec h
  refine ⟨?special, ?reg, ?mem, ?store, ?halted, ?pc, exec_sr h, exec_sameOtherSrBits h⟩
  case special => exact ht ▸ (effectOf i s).apply_sameSpecial s
  case reg =>
    intro r hr
    rw [ht, Effect.apply_reg _ _ (by simpa using hr)]
  case mem =>
    intro hi a
    rw [exec_mem_of_not_store h hi]
  case store =>
    rintro rd rs offset rfl
    have hmem : t.mem = s.mem.writeWord (effectiveAddress (s.reg rs) offset) (s.reg rd) := exec_mem h
    refine ⟨fun hlast a => ?_, fun b hb hb' => ?_⟩
    · rw [hmem, hlast, Memory.writeWord_last]
    · rw [hmem, Memory.read_writeWord_other _ hb hb']
  case halted =>
    intro hi
    rw [ht, Effect.apply_halted _ _ (by simpa using hi)]
  case pc =>
    intro hi
    rw [ht, Effect.apply_pc _ _ (by simpa using hi)]

/-! ### The step -/

/-- Settles O17: the fetch stage advances `pc`, and the effect of the instruction leaves it. -/
theorem pcAdvancesUnlessControlTransfers : Obligations.PcAdvancesUnlessControlTransfers := by
  intro s t i hi hc hstep
  obtain ⟨-, j, hj, rfl⟩ := step_next_effect hstep
  obtain rfl : i = j := Option.some.inj (hi.symm.trans hj)
  have hpc : ((effectOf i s.advancePc).apply s.advancePc).pc = s.pc + 2 :=
    Effect.apply_pc _ _ (by simpa using hc)
  rw [State.addCycle_pc, hpc, BitVec.toNat_add]
  rfl

theorem step_cycles {s t : State} (h : step s = .next t) : t.cycles = s.cycles + 1 := by
  obtain ⟨-, i, -, rfl⟩ := step_next_effect h
  exact congrArg (· + 1) ((effectOf i s.advancePc).apply_sameSpecial s.advancePc).cycles

theorem step_sr_bit {s t : State} (h : step s = .next t) {k : Fin Config.xlen} (hz : k ≠ Config.flagLayout.zBit)
    (hn : k ≠ Config.flagLayout.nBit) (hc : k ≠ Config.flagLayout.cBit) :
    t.sr.getLsbD k.val = s.sr.getLsbD k.val := by
  obtain ⟨-, i, -, rfl⟩ := step_next_effect h
  exact (effectOf i s.advancePc).apply_sr_bit s.advancePc hz hn (fun e => absurd e hc)

theorem step_wf {s t : State} (h : step s = .next t) (hs : s.mem.wf = true) : t.mem.wf = true := by
  obtain ⟨-, i, -, rfl⟩ := step_next_effect h
  exact (effectOf i s.advancePc).apply_wf s.advancePc hs

end Sys2Proof.Machine
end

section
/-! PROOFS. The registers and the flag unit on their own (R11, R12, R22). -/

namespace Sys2Proof

namespace FlagLayout

/-- The bits of `to_bits`, the later position winning where two coincide. -/
theorem getLsbD_toBits (L : FlagLayout) (f : Flags) (k : Fin 16) :
    (L.toBits f).getLsbD k.val =
      if k = L.vBit then f.overflow else if k = L.cBit then f.carry
      else if k = L.nBit then f.negative else if k = L.zBit then f.zero else false := by
  simp only [toBits, getLsbD_putBit, BitVec.ofNat_eq_ofNat, BitVec.getLsbD_zero]

variable {L : FlagLayout} (h : L.Distinct) (f : Flags)
include h

theorem toBits_zBit : (L.toBits f).getLsbD L.zBit.val = f.zero := by
  obtain ⟨hzn, hzc, hzv, -, -, -⟩ := h
  rw [getLsbD_toBits, if_neg hzv, if_neg hzc, if_neg hzn, if_pos rfl]

theorem toBits_nBit : (L.toBits f).getLsbD L.nBit.val = f.negative := by
  obtain ⟨-, -, -, hnc, hnv, -⟩ := h
  rw [getLsbD_toBits, if_neg hnv, if_neg hnc, if_pos rfl]

theorem toBits_cBit : (L.toBits f).getLsbD L.cBit.val = f.carry := by
  obtain ⟨-, -, -, -, -, hcv⟩ := h
  rw [getLsbD_toBits, if_neg hcv, if_pos rfl]

omit h in
theorem toBits_vBit : (L.toBits f).getLsbD L.vBit.val = f.overflow := by
  rw [getLsbD_toBits, if_pos rfl]

omit h in
theorem toBits_other {k : Fin 16} (hz : k ≠ L.zBit) (hn : k ≠ L.nBit) (hc : k ≠ L.cBit) (hv : k ≠ L.vBit) :
    (L.toBits f).getLsbD k.val = false := by
  rw [getLsbD_toBits, if_neg hv, if_neg hc, if_neg hn, if_neg hz]

theorem fromBits_toBits : L.fromBits (L.toBits f) = f := by
  rw [fromBits, toBits_zBit h, toBits_nBit h, toBits_cBit h, toBits_vBit]

end FlagLayout

namespace Machine

/-- Settles O52: the bits of `to_bits` one by one, and the flag updates of O19. -/
theorem flagUnitRoundTrip : Obligations.FlagUnitRoundTrip := by
  refine ⟨fun L h f => ?_, fun L w => rfl, flagsChangeOnlyByTheirWriters⟩
  exact ⟨L.fromBits_toBits h f, L.toBits_zBit h f, L.toBits_nBit h f, L.toBits_cBit h f, L.toBits_vBit f,
    fun k => L.toBits_other f⟩

/-- Settles O21: register 0 has no storage. -/
theorem registerZeroIsConstant : Obligations.RegisterZeroIsConstant := fun s v =>
  ⟨s.reg_zero, s.writeGp_zero v, s.readGp_zero, s.writeGp_zero v⟩

theorem State.writeGp_eq (s : State) (i : Nat) (v : Word) : s.writeGp i v = { s with x := (s.writeGp i v).x } := by
  unfold State.writeGp
  split <;> rfl

/-- Settles O22, index by index. -/
theorem registerFileAccess : Obligations.RegisterFileAccess := by
  intro s i v
  refine ⟨?zero, fun hi => ⟨s.readGp_out_of_range hi, s.writeGp_out_of_range hi v⟩, fun h1 h15 => ⟨?same, ?other, ?frame⟩⟩
  case zero =>
    rintro rfl
    exact ⟨s.readGp_zero, s.writeGp_zero v⟩
  case same => rw [State.readGp_writeGp, if_pos ⟨rfl, h1, h15⟩]
  case other =>
    intro j hj
    rw [State.readGp_writeGp, if_neg (fun h => hj h.1.symm)]
  case frame => exact s.writeGp_eq i v

end Machine

end Sys2Proof
end

section
/-! PROOFS. The operations of the host: their frames, and what a schedule of them keeps (R18, R103). -/

namespace Sys2Proof.Machine

/-! ### What the transitions leave unchanged -/

section
variable (s : State)

@[simp] theorem State.raise_lr : s.raisePrivilegeOnException.lr = s.lr := by rw [State.raise_spec]
@[simp] theorem State.raise_sr : s.raisePrivilegeOnException.sr = s.sr := by rw [State.raise_spec]
@[simp] theorem State.raise_cycles : s.raisePrivilegeOnException.cycles = s.cycles := by rw [State.raise_spec]
@[simp] theorem State.raise_mem : s.raisePrivilegeOnException.mem = s.mem := by rw [State.raise_spec]

@[simp] theorem State.enterKernelMode_lr : s.enterKernelMode.lr = s.lr := by
  rw [State.enterKernelMode_spec]; split <;> rfl
@[simp] theorem State.enterKernelMode_sr : s.enterKernelMode.sr = s.sr := by
  rw [State.enterKernelMode_spec]; split <;> rfl
@[simp] theorem State.enterKernelMode_savedPc : s.enterKernelMode.savedPc = s.savedPc := by
  rw [State.enterKernelMode_spec]; split <;> rfl
@[simp] theorem State.enterKernelMode_savedSr : s.enterKernelMode.savedSr = s.savedSr := by
  rw [State.enterKernelMode_spec]; split <;> rfl
@[simp] theorem State.enterKernelMode_cycles : s.enterKernelMode.cycles = s.cycles := by
  rw [State.enterKernelMode_spec]; split <;> rfl
@[simp] theorem State.enterKernelMode_mem : s.enterKernelMode.mem = s.mem := by
  rw [State.enterKernelMode_spec]; split <;> rfl

variable (target : Ring)

@[simp] theorem State.dropPrivilege_lr : (s.dropPrivilege target).lr = s.lr := by simp [State.dropPrivilege_spec]
@[simp] theorem State.dropPrivilege_sr : (s.dropPrivilege target).sr = s.sr := by simp [State.dropPrivilege_spec]
@[simp] theorem State.dropPrivilege_savedPc : (s.dropPrivilege target).savedPc = s.savedPc := by
  simp [State.dropPrivilege_spec]
@[simp] theorem State.dropPrivilege_savedSr : (s.dropPrivilege target).savedSr = s.savedSr := by
  simp [State.dropPrivilege_spec]
@[simp] theorem State.dropPrivilege_cycles : (s.dropPrivilege target).cycles = s.cycles := by
  simp [State.dropPrivilege_spec]
@[simp] theorem State.dropPrivilege_mem : (s.dropPrivilege target).mem = s.mem := by simp [State.dropPrivilege_spec]

end

/-! ### What every step keeps, every operation made of steps keeps -/

section
variable {P : State → Prop} (hstep : ∀ s t, P s → step s = .next t → P t)
include hstep

theorem stepOp_keeps {s : State} (h : P s) : P (stepOp s).1 := by
  unfold stepOp
  split
  · next t ht => exact hstep s t h ht
  · exact h
  · exact h

theorem run_keeps (n : Nat) {s : State} (h : P s) : P (run n s).1 := by
  induction n generalizing s with
  | zero => exact h
  | succ n ih =>
    unfold run
    split
    · exact h
    · split
      · next t ht => exact ih (hstep s t h ht)
      · exact h
      · exact h

/-- A property is kept by every operation when it holds after reset and is kept by a step and by the five other
operations that write the state. -/
theorem perform_keeps {image : Memory} (hreset : P (State.resetWith image))
    (hwrite : ∀ s i v, P s → P (s.writeGp i v))
    (hload : ∀ s words base, P s → P (s.loadProgram words base))
    (henter : ∀ s, P s → P s.enterKernelMode)
    (hdrop : ∀ s target, P s → P (s.dropPrivilege target))
    (hraise : ∀ s, P s → P s.raisePrivilegeOnException)
    (op : HostOp) {s : State} (h : P s) : P (perform image op s).1 := by
  cases op
  case writeGp i v => exact hwrite s i v h
  case loadProgram words base => exact hload s words base h
  case enterKernelMode => exact henter s h
  case dropPrivilege target => exact hdrop s target h
  case raisePrivilegeOnException => exact hraise s h
  case step => exact stepOp_keeps hstep h
  case run n => exact run_keeps hstep n h
  case reset => exact hreset
  case decode | readGp | isKernelMode | isSupervisorMode | isUserMode | lookup => exact h

end

/-- What every operation keeps, every schedule keeps (R103). -/
theorem performAll_keeps {P : State → Prop} {image : Memory} (hop : ∀ op s, P s → P (perform image op s).1)
    (ops : List HostOp) {s : State} (h : P s) : P (performAll image ops s) := by
  induction ops generalizing s with
  | nil => exact h
  | cons op ops ih => exact ih (hop op s h)

/-- Settles O16: a step's cycle is the one `addCycle` counts; every other operation is framed. -/
theorem cyclesCountCompletedSteps : Obligations.CyclesCountCompletedSteps := by
  refine ⟨fun s t => step_cycles, fun image op s hs hr hz => ?_⟩
  cases op
  case step => exact absurd rfl hs
  case run n => exact absurd rfl (hr n)
  case reset => exact absurd rfl hz
  case writeGp i v => exact s.writeGp_cycles i v
  case enterKernelMode => exact s.enterKernelMode_cycles
  case dropPrivilege target => exact s.dropPrivilege_cycles target
  case raisePrivilegeOnException => exact s.raise_cycles
  case decode | readGp | isKernelMode | isSupervisorMode | isUserMode | loadProgram | lookup => rfl

/-! ### The privileged state -/

/-- The stack pointers, `lr`, the ring and the save registers are the same. -/
structure SamePrivileged (s t : State) : Prop where
  sp      : t.sp = s.sp
  ksp     : t.ksp = s.ksp
  ssp     : t.ssp = s.ssp
  usp     : t.usp = s.usp
  lr      : t.lr = s.lr
  ring    : t.ring = s.ring
  savedPc : t.savedPc = s.savedPc
  savedSr : t.savedSr = s.savedSr

namespace SamePrivileged

protected theorem refl (s : State) : SamePrivileged s s := ⟨rfl, rfl, rfl, rfl, rfl, rfl, rfl, rfl⟩

protected theorem trans {s t u : State} (h : SamePrivileged s t) (h' : SamePrivileged t u) : SamePrivileged s u :=
  ⟨h'.sp.trans h.sp, h'.ksp.trans h.ksp, h'.ssp.trans h.ssp, h'.usp.trans h.usp, h'.lr.trans h.lr,
    h'.ring.trans h.ring, h'.savedPc.trans h.savedPc, h'.savedSr.trans h.savedSr⟩

theorem bank {s t : State} (h : SamePrivileged s t) (q : Ring) : t.bank q = s.bank q := by
  cases q
  · exact h.ksp
  · exact h.ssp
  · exact h.usp

theorem of_writeGp (s : State) (i : Nat) (v : Word) : SamePrivileged s (s.writeGp i v) := by
  constructor <;> simp

theorem of_loadProgram (s : State) (words : List Word) (base : Nat) : SamePrivileged s (s.loadProgram words base) :=
  ⟨rfl, rfl, rfl, rfl, rfl, rfl, rfl, rfl⟩

/-- No instruction writes any of it, and neither the fetch stage nor the count of the cycle does. -/
theorem of_step {s t : State} (h : step s = .next t) : SamePrivileged s t := by
  obtain ⟨-, i, -, rfl⟩ := step_next_effect h
  obtain ⟨hsp, hksp, hssp, husp, hlr, hring, hpc, hsr, -⟩ :=
    (effectOf i s.advancePc).apply_sameSpecial s.advancePc
  exact ⟨hsp, hksp, hssp, husp, hlr, hring, hpc, hsr⟩

theorem keeps_step {s : State} (t u : State) (h : SamePrivileged s t) (hu : step t = .next u) : SamePrivileged s u :=
  h.trans (of_step hu)

end SamePrivileged

/-- An operation that is no transition and no reset leaves all of the privileged state. -/
theorem perform_samePrivileged (image : Memory) (op : HostOp) (s : State) (hr : op ≠ .reset)
    (hx : op ≠ .raisePrivilegeOnException) (he : op ≠ .enterKernelMode) (hd : ∀ r, op ≠ .dropPrivilege r) :
    SamePrivileged s (perform image op s).1 := by
  cases op
  case reset => exact absurd rfl hr
  case raisePrivilegeOnException => exact absurd rfl hx
  case enterKernelMode => exact absurd rfl he
  case dropPrivilege r => exact absurd rfl (hd r)
  case writeGp i v => exact .of_writeGp s i v
  case loadProgram words base => exact .of_loadProgram s words base
  case step => exact stepOp_keeps SamePrivileged.keeps_step (.refl s)
  case run n => exact run_keeps SamePrivileged.keeps_step n (.refl s)
  case decode | readGp | isKernelMode | isSupervisorMode | isUserMode | lookup => exact .refl s

/-- Settles O48: the three transitions by their frames, every other operation by `perform_samePrivileged`. -/
theorem privilegedStateWrittenByTransitionsOnly : Obligations.PrivilegedStateWrittenByTransitionsOnly := by
  rintro image op s t rfl hr
  by_cases hx : op = .raisePrivilegeOnException
  · subst hx
    exact ⟨s.raise_lr, fun h => absurd rfl h⟩
  by_cases he : op = .enterKernelMode
  · subst he
    exact ⟨s.enterKernelMode_lr, fun _ => ⟨s.enterKernelMode_savedPc, s.enterKernelMode_savedSr, fun h => absurd rfl h⟩⟩
  by_cases hd : ∃ r, op = .dropPrivilege r
  · obtain ⟨r, rfl⟩ := hd
    exact ⟨s.dropPrivilege_lr r, fun _ =>
      ⟨s.dropPrivilege_savedPc r, s.dropPrivilege_savedSr r, fun _ h => absurd rfl (h r)⟩⟩
  obtain ⟨hsp, hksp, hssp, husp, hlr, hring, hpc, hsr⟩ :=
    perform_samePrivileged image op s hr hx he (fun r h => hd ⟨r, h⟩)
  exact ⟨hlr, fun _ => ⟨hpc, hsr, fun _ _ => ⟨hsp, hksp, hssp, husp, hring⟩⟩⟩

end Sys2Proof.Machine
end

section
/-! PROOFS. The invariant of reachable states, in two halves that are kept independently: the banked stack pointers, and
memory, `lr` and `sr` (R18, R19, R20, R23, R40). -/

namespace Sys2Proof.Machine

/-! ### The banked stack pointers -/

/-- The live stack pointer is the bank of the ring, and every bank holds its reset value (R18, R32). -/
structure State.Banked (s : State) : Prop where
  live  : s.sp = s.bank s.ring
  banks : ∀ q, s.bank q = State.reset.bank q

namespace State

/-! Where the live stack pointer is the bank of the ring, banking it changes no bank. -/

section
variable {s : State} (h : s.sp = s.bank s.ring) (q : Ring)
include h

theorem setBank_bank_of_live : (s.setBank s.ring s.sp).bank q = s.bank q := by
  rw [setBank_bank, h]
  split
  · next e => rw [e]
  · rfl

theorem dropPrivilege_bank (target : Ring) : (s.dropPrivilege target).bank q = s.bank q := by
  rw [dropPrivilege_spec, setRing_bank, setSp_bank, setBank_bank_of_live h]

theorem raise_bank : s.raisePrivilegeOnException.bank q = s.bank q := by
  simp only [raisePrivilegeOnException, setPc_bank, setSp_bank, setRing_bank]
  split
  · rfl
  · exact setBank_bank_of_live (s := (s.setSavedPc s.pc).setSavedSr s.sr) h q

theorem enterKernelMode_bank : s.enterKernelMode.bank q = s.bank q := by
  unfold enterKernelMode
  split
  · next e => exact e ▸ setBank_bank_of_live h q
  · rfl
  · rfl

end

namespace Banked

theorem of_samePrivileged {s t : State} (h : s.Banked) (e : SamePrivileged s t) : t.Banked where
  live    := by rw [e.sp, e.ring, e.bank, h.live]
  banks q := (e.bank q).trans (h.banks q)

theorem resetWith (image : Memory) : (State.resetWith image).Banked :=
  ⟨rfl, fun q => by cases q <;> rfl⟩

theorem keeps_step (s t : State) (h : s.Banked) (hstep : step s = .next t) : t.Banked :=
  h.of_samePrivileged (.of_step hstep)

theorem enterKernelMode {s : State} (h : s.Banked) : s.enterKernelMode.Banked :=
  ⟨s.enterKernelMode_spIsBank h.live, fun q => (enterKernelMode_bank h.live q).trans (h.banks q)⟩

theorem dropPrivilege {s : State} (h : s.Banked) (target : Ring) : (s.dropPrivilege target).Banked :=
  ⟨s.dropPrivilege_spIsBank target, fun q => (dropPrivilege_bank h.live q target).trans (h.banks q)⟩

theorem raise {s : State} (h : s.Banked) : s.raisePrivilegeOnException.Banked :=
  ⟨s.raise_spIsBank, fun q => (raise_bank h.live q).trans (h.banks q)⟩

theorem perform (image : Memory) (op : HostOp) (s : State) (h : s.Banked) : (perform image op s).1.Banked :=
  perform_keeps keeps_step (resetWith image)
    (fun s i v h => h.of_samePrivileged (.of_writeGp s i v))
    (fun s words base h => h.of_samePrivileged (.of_loadProgram s words base))
    (fun _ => enterKernelMode) (fun _ target h => h.dropPrivilege target) (fun _ => raise) op h

end Banked

end State

/-- Settles O56: `State.Banked` holds at reset and every operation keeps it. -/
theorem reachableStackPointersAreBanked : Obligations.ReachableStackPointersAreBanked := by
  rintro image ops t rfl
  have h := performAll_keeps (State.Banked.perform image) ops (State.Banked.resetWith image)
  exact ⟨h.live, h.banks .kernel, h.banks .supervisor, h.banks .user⟩

/-! ### Memory, `lr` and `sr` -/

/-- Memory is canonical, `lr` holds its reset value, and every bit of `sr` but Z, N and C is clear, V among them (R19, R20,
R23, R40). -/
structure State.Clean (s : State) : Prop where
  mem : s.mem.wf = true
  lr  : s.lr = Config.wordReset
  sr  : ∀ k : Fin Config.xlen, k ≠ Config.flagLayout.zBit → k ≠ Config.flagLayout.nBit → k ≠ Config.flagLayout.cBit →
    s.sr.getLsbD k.val = false

namespace State.Clean

theorem resetWith {image : Memory} (h : image.wf = true) : (State.resetWith image).Clean :=
  ⟨h, rfl, fun _ _ _ _ => BitVec.getLsbD_zero⟩

theorem of_frame {s t : State} (h : s.Clean) (hmem : t.mem.wf = true) (hlr : t.lr = s.lr) (hsr : t.sr = s.sr) :
    t.Clean :=
  ⟨hmem, hlr.trans h.lr, hsr ▸ h.sr⟩

theorem keeps_step (s t : State) (h : s.Clean) (hstep : step s = .next t) : t.Clean where
  mem := step_wf hstep h.mem
  lr  := (SamePrivileged.of_step hstep).lr.trans h.lr
  sr k hz hn hc := (step_sr_bit hstep hz hn hc).trans (h.sr k hz hn hc)

theorem perform {image : Memory} (hi : image.wf = true) (op : HostOp) {s : State} (h : s.Clean) :
    (perform image op s).1.Clean :=
  perform_keeps keeps_step (resetWith hi)
    (fun s i v h => h.of_frame (by simp [h.mem]) (s.writeGp_lr i v) (s.writeGp_sr i v))
    (fun _ words base h => h.of_frame (Memory.wf_loadWords base words h.mem) rfl rfl)
    (fun s h => h.of_frame (by simp [h.mem]) s.enterKernelMode_lr s.enterKernelMode_sr)
    (fun s target h => h.of_frame (by simp [h.mem]) (s.dropPrivilege_lr target) (s.dropPrivilege_sr target))
    (fun s h => h.of_frame (by simp [h.mem]) s.raise_lr s.raise_sr) op h

end State.Clean

/-! ### The invariant -/

theorem State.inv_iff (s : State) : s.Inv ↔ s.Banked ∧ s.Clean := by
  constructor
  · intro h
    refine ⟨⟨h.spIsBank, fun q => ?_⟩, h.memCanonical, h.lrConstant, fun k hz hn hc => ?_⟩
    · cases q
      · exact h.kspConstant
      · exact h.sspConstant
      · exact h.uspConstant
    · by_cases hv : k = Config.flagLayout.vBit
      · exact hv ▸ h.overflowClear
      · exact h.otherBitsZero k hz hn hc hv
  · rintro ⟨hb, hc⟩
    exact
      { memCanonical  := hc.mem
        spIsBank      := hb.live
        kspConstant   := hb.banks .kernel
        sspConstant   := hb.banks .supervisor
        uspConstant   := hb.banks .user
        lrConstant    := hc.lr
        overflowClear := hc.sr Config.flagLayout.vBit (by decide) (by decide) (by decide)
        otherBitsZero := fun k hz hn hcb _ => hc.sr k hz hn hcb }

/-- Settles O54: each half of the invariant is kept by a step. -/
theorem stepKeepsInvariant : Obligations.StepKeepsInvariant := by
  intro s t h hstep
  obtain ⟨hb, hc⟩ := s.inv_iff.mp h
  exact t.inv_iff.mpr ⟨State.Banked.keeps_step s t hb hstep, State.Clean.keeps_step s t hc hstep⟩

/-- Settles O55: each half of the invariant is kept by every operation. -/
theorem hostOperationKeepsInvariant : Obligations.HostOperationKeepsInvariant := by
  intro image op s hi h
  obtain ⟨hb, hc⟩ := s.inv_iff.mp h
  exact (State.inv_iff _).mpr ⟨State.Banked.perform image op s hb, State.Clean.perform hi op hc⟩

/-! ### Reset -/

/-- Settles O53: both halves of the invariant hold at reset. -/
theorem invariantHoldsAtReset : Obligations.InvariantHoldsAtReset := by
  have h (image : Memory) (hi : image.wf = true) : (State.resetWith image).Inv :=
    (State.inv_iff _).mpr ⟨State.Banked.resetWith image, State.Clean.resetWith hi⟩
  exact ⟨h, h Config.memInit Memory.wf_memInit⟩

@[simp] theorem State.resetWith_readGp (image : Memory) (i : Nat) : (State.resetWith image).readGp i = 0 := by
  unfold State.readGp
  split
  · exact Vector.getElem_replicate _
  · rfl

/-- Settles O51, field by field. -/
theorem resetValues : Obligations.ResetValues := by
  rintro image s t h
  obtain rfl : State.resetWith image = t := (Prod.mk.inj h).1
  exact ⟨rfl, rfl, rfl, rfl, rfl, fun r => State.resetWith_readGp image r.val, rfl, rfl, rfl, rfl, rfl, rfl, rfl, rfl⟩

end Sys2Proof.Machine
end

section
/-! PROOFS. Memory: 16-bit accesses in and out of bounds, the fetch, and the loading of a program (R42 to R44, R53,
R55). -/

namespace Sys2Proof.Machine

/-! ### 16-bit accesses -/

namespace Memory

@[simp] theorem readWord_last (m : Memory) : m.readWord 0xFFFF = 0 := rfl

@[simp] theorem fetch_last (m : Memory) : m.fetch 0xFFFF = Config.haltWord := rfl

section
variable (m : Memory) {a : Word} (h : a ≠ 0xFFFF) (v : Word)
include h

theorem readWord_of_ne_last : m.readWord a = wordOfBytes (m.read a.toNat) (m.read (a.toNat + 1)) :=
  if_pos ((accessInBounds_iff a).mpr h)

theorem fetch_of_ne_last : m.fetch a = m.readWord a := if_pos ((accessInBounds_iff a).mpr h)

theorem read_writeWord_low : (m.writeWord a v).read a.toNat = lowByte v := by
  rw [read_writeWord, if_pos ⟨(accessInBounds_iff a).mpr h, rfl⟩]

theorem read_writeWord_high : (m.writeWord a v).read (a.toNat + 1) = highByte v := by
  rw [read_writeWord, if_neg (fun hlow => Nat.succ_ne_self _ hlow.2), if_pos ⟨(accessInBounds_iff a).mpr h, rfl⟩]

theorem readWord_writeWord_same : (m.writeWord a v).readWord a = v := by
  rw [readWord_of_ne_last _ h, read_writeWord_low m h, read_writeWord_high m h, wordOfBytes_low_high]

/-- A word stored is fetched at once (decision D21). -/
theorem fetch_writeWord_same : (m.writeWord a v).fetch a = v := by
  rw [fetch_of_ne_last _ h, readWord_writeWord_same m h]

end

end Memory

/-- Settles O23: the two bytes of a word, weighed. -/
theorem memReadIsLittleEndianWithinBounds : Obligations.MemReadIsLittleEndianWithinBounds := by
  refine fun m a => ⟨fun hlast => ?_, fun h => ?_⟩
  · rw [hlast, Memory.readWord_last]
  · rw [m.readWord_of_ne_last h, wordOfBytes_toNat]

/-- Settles O24, byte by byte. -/
theorem memWriteIsLittleEndianWithinBounds : Obligations.MemWriteIsLittleEndianWithinBounds := by
  refine fun m a v => ⟨fun hlast => ?_, fun h => ⟨?_, ?_, fun b => m.read_writeWord_other⟩⟩
  · rw [hlast, Memory.writeWord_last]
  · rw [m.read_writeWord_low h, lowByte_toNat]
  · rw [m.read_writeWord_high h, highByte_toNat]

/-- Settles O25, at the last address and elsewhere. -/
theorem fetchIsMemReadOrHalt : Obligations.FetchIsMemReadOrHalt := by
  refine fun m a => ⟨fun hlast => ?_, m.fetch_of_ne_last⟩
  rw [hlast, Memory.fetch_last, Config.haltWord]

/-! ### The fetch of a step -/

theorem decodeWord_haltWord : decodeWord Config.haltWord = some .halt := rfl

/-- Settles O14: the word fetched is the HALT word, and its effect is on the `pc` that has wrapped. -/
theorem outOfBoundsFetchHalts : Obligations.OutOfBoundsFetchHalts := by
  intro s hpc hrun
  have hfetch : s.fetchWord = Config.haltWord := by rw [State.fetchWord, hpc, Memory.fetch_last]
  have hadv : s.advancePc = s.setPc 0x0001 := by rw [State.advancePc, hpc]; rfl
  rw [step_of_effect hrun (hfetch ▸ decodeWord_haltWord), hadv]
  rfl

/-- Settles O26: the effect of the STORE writes the word at the `pc` it leaves. -/
theorem storeIsSeenByTheNextFetch : Obligations.StoreIsSeenByTheNextFetch := by
  intro s t rd rs offset hdec haddr hbound hstep
  obtain ⟨-, i, hi, rfl⟩ := step_next_effect hstep
  obtain rfl : Instr.store rd rs offset = i := Option.some.inj (hdec.symm.trans hi)
  have heffect : effectOf (.store rd rs offset) s.advancePc = .storeWord (s.pc + 2) (s.reg rd) :=
    congrArg (Effect.storeWord · (s.reg rd)) haddr
  rw [heffect]
  exact ⟨rfl, s.mem.fetch_writeWord_same hbound (s.reg rd)⟩

/-! ### Loading a program -/

namespace Memory

/-- A first word that fits is placed, low byte first, and the rest is loaded after it. -/
theorem loadWords_cons_of_fits (m : Memory) {base : Nat} (w : Word) (ws : List Word) (h : base + 1 ≤ 0xFFFF) :
    m.loadWords base (w :: ws) =
      ((m.write base (lowByte w)).write (base + 1) (highByte w)).loadWords (base + 2) ws :=
  if_pos (Nat.lt_succ_of_le h)

/-- A first word that does not fit ends the loading (decision D19). -/
theorem loadWords_cons_of_not_fits (m : Memory) {base : Nat} (w : Word) (ws : List Word) (h : ¬base + 1 ≤ 0xFFFF) :
    m.loadWords base (w :: ws) = m :=
  if_neg (fun hlt => h (Nat.le_of_lt_succ hlt))

/-- A byte at which no loaded word is placed reads as before. -/
theorem read_loadWords_other {m : Memory} {base a : Nat} {ws : List Word}
    (h : ∀ i < ws.length, base + 2 * i + 1 ≤ 0xFFFF → a ≠ base + 2 * i ∧ a ≠ base + 2 * i + 1) :
    (m.loadWords base ws).read a = m.read a := by
  induction ws generalizing m base with
  | nil => rfl
  | cons w ws ih =>
    by_cases hfits : base + 1 ≤ 0xFFFF
    · obtain ⟨hlow, hhigh⟩ : a ≠ base ∧ a ≠ base + 1 := h 0 (Nat.succ_pos _) hfits
      have hrest : ∀ i < ws.length, base + 2 + 2 * i + 1 ≤ 0xFFFF →
          a ≠ base + 2 + 2 * i ∧ a ≠ base + 2 + 2 * i + 1 := by
        intro i hi hb
        have := h (i + 1) (Nat.succ_lt_succ hi) (by omega)
        omega
      rw [loadWords_cons_of_fits _ _ _ hfits, ih hrest, read_write_other _ _ hhigh, read_write_other _ _ hlow]
    · rw [loadWords_cons_of_not_fits _ _ _ hfits]

theorem read_loadWords_of_lt_base {m : Memory} {base a : Nat} {ws : List Word} (h : a < base) :
    (m.loadWords base ws).read a = m.read a :=
  read_loadWords_other (fun i _ _ => by omega)

/-- A word that fits is placed at its two addresses. -/
theorem read_loadWords_placed {m : Memory} {base i : Nat} {w : Word} {ws : List Word} (hw : ws[i]? = some w)
    (hb : base + 2 * i + 1 ≤ 0xFFFF) :
    (m.loadWords base ws).read (base + 2 * i) = lowByte w ∧
      (m.loadWords base ws).read (base + 2 * i + 1) = highByte w := by
  induction ws generalizing m base i with
  | nil => cases hw
  | cons v ws ih =>
    rw [loadWords_cons_of_fits _ _ _ (by omega)]
    cases i with
    | zero =>
      obtain rfl : v = w := Option.some.inj hw
      constructor
      · rw [read_loadWords_of_lt_base (by omega), read_write_other _ _ (by omega)]
        exact read_write_same _ _ _
      · rw [read_loadWords_of_lt_base (by omega)]
        exact read_write_same _ _ _
    | succ i =>
      have hshift : base + 2 * (i + 1) = base + 2 + 2 * i := by omega
      rw [hshift] at hb ⊢
      exact ih hw hb

end Memory

/-- Settles O27: a word that fits is placed, and no other byte is written. -/
theorem loadProgramPlacesWords : Obligations.LoadProgramPlacesWords := by
  refine fun image s words base => ⟨rfl, fun i w hw hb => ?_, fun a => Memory.read_loadWords_other⟩
  obtain ⟨hlow, hhigh⟩ := Memory.read_loadWords_placed (m := s.mem) hw hb
  exact ⟨(congrArg BitVec.toNat hlow).trans (lowByte_toNat w), (congrArg BitVec.toNat hhigh).trans (highByte_toNat w)⟩

end Sys2Proof.Machine
end

section
/-! PROOFS. The encoding: the fields of the words built from fields, the words rebuilt from their fields, the tests of
R63, and from them that decoding and encoding are inverse on the well-formed instructions (R60 to R70). -/

namespace Sys2Proof

/-! ### The fields of a word built from fields, and the word rebuilt from its fields (R61, R62) -/

section Fields

variable (op : BitVec 4) (rd rs : Reg) (last : BitVec 4) (imm8 : BitVec 8) (addr12 : BitVec 12) (fixed : BitVec 12)

@[simp] theorem opcodeField_wordOfNibbles : opcodeField (wordOfNibbles op rd rs last) = op := by
  apply BitVec.eq_of_toNat_eq
  rw [opcodeField_toNat, wordOfNibbles_toNat]
  omega

@[simp] theorem rdField_wordOfNibbles : rdField (wordOfNibbles op rd rs last) = rd := by
  apply Fin.ext
  rw [rdField_val, wordOfNibbles_toNat]
  omega

@[simp] theorem rsField_wordOfNibbles : rsField (wordOfNibbles op rd rs last) = rs := by
  apply Fin.ext
  rw [rsField_val, wordOfNibbles_toNat]
  omega

@[simp] theorem offsetField_wordOfNibbles : offsetField (wordOfNibbles op rd rs last) = last := by
  apply BitVec.eq_of_toNat_eq
  rw [offsetField_toNat, wordOfNibbles_toNat]
  omega

/-- `rt` and `offset` are the same slice (R61). -/
theorem rtField_eq (w : Word) : rtField w = regOfBits (offsetField w) := rfl

@[simp] theorem rtField_wordOfNibbles (rt : Reg) : rtField (wordOfNibbles op rd rs (bitsOfReg rt)) = rt := by
  rw [rtField_eq, offsetField_wordOfNibbles, regOfBits_bitsOfReg]

@[simp] theorem opcodeField_wordOfImm : opcodeField (wordOfImm op rd imm8) = op := by
  apply BitVec.eq_of_toNat_eq
  rw [opcodeField_toNat, wordOfImm_toNat]
  omega

@[simp] theorem rdField_wordOfImm : rdField (wordOfImm op rd imm8) = rd := by
  apply Fin.ext
  rw [rdField_val, wordOfImm_toNat]
  omega

@[simp] theorem imm8Field_wordOfImm : imm8Field (wordOfImm op rd imm8) = imm8 := by
  apply BitVec.eq_of_toNat_eq
  rw [imm8Field_toNat, wordOfImm_toNat]
  omega

/-- The bits of the Extended selector in a word of BNE are `rd` and the high nibble of `imm8`. -/
theorem extSelector_wordOfImm_toNat :
    (extSelector (wordOfImm op rd imm8)).toNat = rd.val * 16 + imm8.toNat / 16 := by
  rw [extSelector_toNat, wordOfImm_toNat]
  omega

@[simp] theorem opcodeField_wordOfAddr : opcodeField (wordOfAddr op addr12) = op := by
  apply BitVec.eq_of_toNat_eq
  rw [opcodeField_toNat, wordOfAddr_toNat]
  omega

@[simp] theorem addr12Field_wordOfAddr : addr12Field (wordOfAddr op addr12) = addr12 := by
  apply BitVec.eq_of_toNat_eq
  rw [addr12Field_toNat, wordOfAddr_toNat]
  omega

@[simp] theorem offsetField_wordOfExtended : offsetField (wordOfExtended fixed last) = last := by
  apply BitVec.eq_of_toNat_eq
  rw [offsetField_toNat, wordOfExtended_toNat]
  omega

@[simp] theorem opcodeField_wordOfExtended :
    opcodeField (wordOfExtended fixed last) = fixed.extractLsb' 8 4 := by
  apply BitVec.eq_of_toNat_eq
  rw [opcodeField_toNat, wordOfExtended_toNat, BitVec.extractLsb'_toNat, Nat.shiftRight_eq_div_pow]
  omega

@[simp] theorem extSelector_wordOfExtended : extSelector (wordOfExtended fixed last) = fixed.setWidth 8 := by
  apply BitVec.eq_of_toNat_eq
  rw [extSelector_toNat, wordOfExtended_toNat, BitVec.toNat_setWidth]
  omega

end Fields

section Rebuild

variable {w : Word} {op : BitVec 4} (h : opcodeField w = op)
include h

theorem wordOfNibbles_fields : wordOfNibbles op (rdField w) (rsField w) (offsetField w) = w := by
  apply BitVec.eq_of_toNat_eq
  rw [wordOfNibbles_toNat, ← h, opcodeField_toNat, rdField_val, rsField_val, offsetField_toNat]
  omega

theorem wordOfNibbles_regs : wordOfNibbles op (rdField w) (rsField w) (bitsOfReg (rtField w)) = w := by
  rw [rtField_eq, bitsOfReg_regOfBits]
  exact wordOfNibbles_fields h

theorem wordOfImm_fields : wordOfImm op (rdField w) (imm8Field w) = w := by
  apply BitVec.eq_of_toNat_eq
  rw [wordOfImm_toNat, ← h, opcodeField_toNat, rdField_val, imm8Field_toNat]
  omega

theorem wordOfAddr_fields : wordOfAddr op (addr12Field w) = w := by
  apply BitVec.eq_of_toNat_eq
  rw [wordOfAddr_toNat, ← h, opcodeField_toNat, addr12Field_toNat]
  omega

theorem wordOfExtended_fields {sel : BitVec 8} (hs : extSelector w = sel) {fixed : BitVec 12}
    (hfixed : fixed.toNat = op.toNat * 256 + sel.toNat) : wordOfExtended fixed (offsetField w) = w := by
  apply BitVec.eq_of_toNat_eq
  rw [wordOfExtended_toNat, hfixed, ← h, ← hs, opcodeField_toNat, extSelector_toNat, offsetField_toNat]
  omega

end Rebuild

/-! ### The four tests of R63 -/

theorem opcodeField_eq_iff {w : Word} {op : BitVec 4} : opcodeField w = op ↔ w.toNat / 4096 = op.toNat := by
  rw [← BitVec.toNat_inj, opcodeField_toNat]

theorem extSelector_eq_iff {w : Word} {sel : BitVec 8} : extSelector w = sel ↔ w.toNat / 16 % 256 = sel.toNat := by
  rw [← BitVec.toNat_inj, extSelector_toNat]

/-- Test 1 changes nothing: 0x0000 is a word of the table's NOP row. -/
theorem classify_of_table {w : Word} {op : BitVec 4} (h : opcodeField w = op) (hop : op ≠ 15) :
    classify w = tableRow op := by
  have htop : w.toNat / 4096 ≠ 15 := fun e => hop (h ▸ opcodeField_eq_iff.mpr e)
  rw [classify_eq, if_neg htop, h]
  split
  next hzero =>
    obtain rfl : 0 = op := h ▸ (opcodeField_eq_iff.mpr (by rw [hzero]; rfl)).symm
    rfl
  next => rw [if_neg (by omega)]

theorem classify_of_extended {w : Word} {sel : BitVec 8} (h : opcodeField w = 15) (hw : w.toNat ≠ 0xFFFF)
    (hs : extSelector w = sel) : classify w = extendedRow sel := by
  have htop : w.toNat / 4096 = 15 := opcodeField_eq_iff.mp h
  rw [classify_eq, if_neg (by omega), if_neg hw, if_pos htop, hs]

/-- No row of test 4 is of the Extended format. -/
theorem tableRow_format (op : BitVec 4) : (tableRow op).1 ≠ .extended := by
  decide +revert

/-- The rows of test 4, and 0xF. -/
theorem nibble_cases (n : BitVec 4) :
    n = 0x0 ∨ n = 0x1 ∨ n = 0x2 ∨ n = 0x3 ∨ n = 0x4 ∨ n = 0x5 ∨ n = 0x6 ∨ n = 0x7 ∨ n = 0x8 ∨ n = 0x9 ∨ n = 0xA ∨
      n = 0xB ∨ n = 0xC ∨ n = 0xD ∨ n = 0xE ∨ n = 0xF := by
  decide +revert

/-- The selectors of the Extended family in R63's words; `extendedRow_format` says what they are to the decoder. -/
abbrev IsExtendedSelector (sel : BitVec 8) : Prop := 0xF0 ≤ sel.toNat ∧ sel.toNat ≤ 0xF3

/-- The branches of test 3. -/
theorem selector_cases (sel : BitVec 8) :
    sel = 0xF0 ∨ sel = 0xF1 ∨ sel = 0xF2 ∨ sel = 0xF3 ∨ ¬IsExtendedSelector sel := by
  bv_omega

theorem extendedRow_of_not_extended {sel : BitVec 8} (h : ¬IsExtendedSelector sel) :
    extendedRow sel = (.bType, .bne) := by
  have hne (lit : BitVec 8) (hlit : IsExtendedSelector lit) : sel ≠ lit := fun e => h (e ▸ hlit)
  rw [extendedRow, if_neg (hne 0xF0 (by decide)), if_neg (hne 0xF1 (by decide)), if_neg (hne 0xF2 (by decide)),
    if_neg (hne 0xF3 (by decide))]

theorem extendedRow_format (sel : BitVec 8) :
    (extendedRow sel).1 = .extended ↔ IsExtendedSelector sel := by
  rcases selector_cases sel with rfl | rfl | rfl | rfl | h
  iterate 4 decide
  simp [extendedRow_of_not_extended h, h]

theorem extendedRow_mnemonic_mem {sel : BitVec 8} (h : IsExtendedSelector sel) :
    (extendedRow sel).2 ∈ [Mnemonic.call, .ret, .push, .pop] := by
  rcases selector_cases sel with rfl | rfl | rfl | rfl | hn
  iterate 4 decide
  exact absurd h hn

/-! ### The instruction of a word, an equation per row of the opcode table -/

/-- An instruction depends on the mnemonic of its word and on the fields. -/
theorem decodeWord_of_classify {w : Word} {k : Format × Mnemonic} (h : classify w = k) :
    decodeWord w = ({ decode w with mnemonic := k.2 } : Decoded).toInstr := by
  subst h
  rfl

section Table

variable {w : Word}

theorem decodeWord_nop (h : opcodeField w = 0x0) : decodeWord w = some (.nop (addr12Field w)) :=
  decodeWord_of_classify (classify_of_table h (by decide))

theorem decodeWord_add (h : opcodeField w = 0x1) : decodeWord w = some (.add (rdField w) (rsField w) (rtField w)) :=
  decodeWord_of_classify (classify_of_table h (by decide))

theorem decodeWord_addi (h : opcodeField w = 0x2) : decodeWord w = some (.addi (rdField w) (imm8Field w)) :=
  decodeWord_of_classify (classify_of_table h (by decide))

theorem decodeWord_sub (h : opcodeField w = 0x3) : decodeWord w = some (.sub (rdField w) (rsField w) (rtField w)) :=
  decodeWord_of_classify (classify_of_table h (by decide))

theorem decodeWord_and (h : opcodeField w = 0x4) : decodeWord w = some (.and (rdField w) (rsField w) (rtField w)) :=
  decodeWord_of_classify (classify_of_table h (by decide))

theorem decodeWord_or (h : opcodeField w = 0x5) : decodeWord w = some (.or (rdField w) (rsField w) (rtField w)) :=
  decodeWord_of_classify (classify_of_table h (by decide))

theorem decodeWord_xor (h : opcodeField w = 0x6) : decodeWord w = some (.xor (rdField w) (rsField w) (rtField w)) :=
  decodeWord_of_classify (classify_of_table h (by decide))

theorem decodeWord_not (h : opcodeField w = 0x7) :
    decodeWord w = some (.not (rdField w) (rsField w) (offsetField w)) :=
  decodeWord_of_classify (classify_of_table h (by decide))

theorem decodeWord_shl (h : opcodeField w = 0x8) : decodeWord w = some (.shl (rdField w) (rsField w) (rtField w)) :=
  decodeWord_of_classify (classify_of_table h (by decide))

theorem decodeWord_shr (h : opcodeField w = 0x9) : decodeWord w = some (.shr (rdField w) (rsField w) (rtField w)) :=
  decodeWord_of_classify (classify_of_table h (by decide))

theorem decodeWord_load (h : opcodeField w = 0xA) :
    decodeWord w = some (.load (rdField w) (rsField w) (offsetField w)) :=
  decodeWord_of_classify (classify_of_table h (by decide))

theorem decodeWord_store (h : opcodeField w = 0xB) :
    decodeWord w = some (.store (rdField w) (rsField w) (offsetField w)) :=
  decodeWord_of_classify (classify_of_table h (by decide))

theorem decodeWord_loadi (h : opcodeField w = 0xC) : decodeWord w = some (.loadi (rdField w) (imm8Field w)) :=
  decodeWord_of_classify (classify_of_table h (by decide))

theorem decodeWord_jmp (h : opcodeField w = 0xD) : decodeWord w = some (.jmp (addr12Field w)) :=
  decodeWord_of_classify (classify_of_table h (by decide))

theorem decodeWord_beq (h : opcodeField w = 0xE) : decodeWord w = some (.beq (rdField w) (imm8Field w)) :=
  decodeWord_of_classify (classify_of_table h (by decide))

variable (h : opcodeField w = 0xF) (hw : w.toNat ≠ 0xFFFF)
include h hw

theorem decodeWord_call (hs : extSelector w = 0xF0) : decodeWord w = some (.call (offsetField w)) :=
  decodeWord_of_classify (classify_of_extended h hw hs)

theorem decodeWord_ret (hs : extSelector w = 0xF1) : decodeWord w = some (.ret (offsetField w)) :=
  decodeWord_of_classify (classify_of_extended h hw hs)

theorem decodeWord_push (hs : extSelector w = 0xF2) : decodeWord w = some (.push (offsetField w)) :=
  decodeWord_of_classify (classify_of_extended h hw hs)

theorem decodeWord_pop (hs : extSelector w = 0xF3) : decodeWord w = some (.pop (offsetField w)) :=
  decodeWord_of_classify (classify_of_extended h hw hs)

theorem decodeWord_bne (hs : ¬IsExtendedSelector (extSelector w)) :
    decodeWord w = some (.bne (rdField w) (imm8Field w)) :=
  decodeWord_of_classify ((classify_of_extended h hw rfl).trans (extendedRow_of_not_extended hs))

end Table

/-! ### Decoding and encoding are inverse -/

/-- R70 on the numbers of the fields. -/
theorem bneEncodable_iff (rd : Reg) (imm8 : BitVec 8) :
    bneEncodable rd imm8 = true ↔ rd.val < 15 ∨ (0x40 ≤ imm8.toNat ∧ imm8.toNat ≤ 0xFE) := by
  have hrd : rd ≠ 15 ↔ rd.val < 15 := by
    rw [Ne, Fin.ext_iff]
    omega
  simp [bneEncodable, hrd, BitVec.le_def]

/-- The encodable BNEs are those whose word tests 2 and 3 leave to BNE. -/
theorem bneEncodable_iff_word (rd : Reg) (imm8 : BitVec 8) :
    bneEncodable rd imm8 = true ↔
      (wordOfImm 15 rd imm8).toNat ≠ 0xFFFF ∧
        ¬IsExtendedSelector (extSelector (wordOfImm 15 rd imm8)) := by
  have hop : (15 : BitVec 4).toNat = 15 := rfl
  rw [bneEncodable_iff, IsExtendedSelector, extSelector_wordOfImm_toNat, wordOfImm_toNat, hop]
  omega

theorem wordOfExtended_ne_haltWord {fixed : BitVec 12} (h : fixed ≠ 0xFFF) (ignored : BitVec 4) :
    (wordOfExtended fixed ignored).toNat ≠ 0xFFFF := by
  have hlt : fixed.toNat ≠ 0xFFF := fun e => h (BitVec.eq_of_toNat_eq e)
  rw [wordOfExtended_toNat]
  omega

/-- Settles O1, instruction by instruction: the word has the fixed bits of its row, and the fields read back. -/
theorem decodeEncodeRoundTrip : Obligations.DecodeEncodeRoundTrip := by
  intro i hwf
  cases i with
  | halt => rfl
  | call ign => simp [encode, decodeWord_call, wordOfExtended_ne_haltWord]
  | ret ign => simp [encode, decodeWord_ret, wordOfExtended_ne_haltWord]
  | push ign => simp [encode, decodeWord_push, wordOfExtended_ne_haltWord]
  | pop ign => simp [encode, decodeWord_pop, wordOfExtended_ne_haltWord]
  | bne rd imm8 =>
    obtain ⟨hhalt, hsel⟩ := (bneEncodable_iff_word rd imm8).mp hwf
    simpa [encode] using decodeWord_bne (opcodeField_wordOfImm _ _ _) hhalt hsel
  | nop ign => simp [encode, decodeWord_nop]
  | add rd rs rt => simp [encode, decodeWord_add]
  | addi rd imm8 => simp [encode, decodeWord_addi]
  | sub rd rs rt => simp [encode, decodeWord_sub]
  | and rd rs rt => simp [encode, decodeWord_and]
  | or rd rs rt => simp [encode, decodeWord_or]
  | xor rd rs rt => simp [encode, decodeWord_xor]
  | not rd rs ign => simp [encode, decodeWord_not]
  | shl rd rs rt => simp [encode, decodeWord_shl]
  | shr rd rs rt => simp [encode, decodeWord_shr]
  | load rd rs offset => simp [encode, decodeWord_load]
  | store rd rs offset => simp [encode, decodeWord_store]
  | loadi rd imm8 => simp [encode, decodeWord_loadi]
  | jmp addr12 => simp [encode, decodeWord_jmp]
  | beq rd imm8 => simp [encode, decodeWord_beq]

/-- The words of the 0xF family: HALT's, then the Extended family's by the selector, then BNE's. -/
theorem encode_decode_of_extended {w : Word} (h : opcodeField w = 15) :
    ∃ i : Instr, decodeWord w = some i ∧ i.WellFormed = true ∧ encode i = w := by
  by_cases hhalt : w.toNat = 0xFFFF
  · obtain rfl : Config.haltWord = w := BitVec.eq_of_toNat_eq hhalt.symm
    exact ⟨.halt, Machine.decodeWord_haltWord, rfl, rfl⟩
  rcases selector_cases (extSelector w) with hs | hs | hs | hs | hs
  · exact ⟨_, decodeWord_call h hhalt hs, rfl, wordOfExtended_fields h hs rfl⟩
  · exact ⟨_, decodeWord_ret h hhalt hs, rfl, wordOfExtended_fields h hs rfl⟩
  · exact ⟨_, decodeWord_push h hhalt hs, rfl, wordOfExtended_fields h hs rfl⟩
  · exact ⟨_, decodeWord_pop h hhalt hs, rfl, wordOfExtended_fields h hs rfl⟩
  · have hw : wordOfImm 15 (rdField w) (imm8Field w) = w := wordOfImm_fields h
    exact ⟨_, decodeWord_bne h hhalt hs, (bneEncodable_iff_word _ _).mpr (hw.symm ▸ ⟨hhalt, hs⟩), hw⟩

/-- Settles O2, row by row of the opcode table: the fields kept are all the bits that the row does not fix. -/
theorem encodeDecodeRoundTrip : Obligations.EncodeDecodeRoundTrip := by
  intro w
  rcases nibble_cases (opcodeField w) with h | h | h | h | h | h | h | h | h | h | h | h | h | h | h | h
  · exact ⟨_, decodeWord_nop h, rfl, wordOfAddr_fields h⟩
  · exact ⟨_, decodeWord_add h, rfl, wordOfNibbles_regs h⟩
  · exact ⟨_, decodeWord_addi h, rfl, wordOfImm_fields h⟩
  · exact ⟨_, decodeWord_sub h, rfl, wordOfNibbles_regs h⟩
  · exact ⟨_, decodeWord_and h, rfl, wordOfNibbles_regs h⟩
  · exact ⟨_, decodeWord_or h, rfl, wordOfNibbles_regs h⟩
  · exact ⟨_, decodeWord_xor h, rfl, wordOfNibbles_regs h⟩
  · exact ⟨_, decodeWord_not h, rfl, wordOfNibbles_fields h⟩
  · exact ⟨_, decodeWord_shl h, rfl, wordOfNibbles_regs h⟩
  · exact ⟨_, decodeWord_shr h, rfl, wordOfNibbles_regs h⟩
  · exact ⟨_, decodeWord_load h, rfl, wordOfNibbles_fields h⟩
  · exact ⟨_, decodeWord_store h, rfl, wordOfNibbles_fields h⟩
  · exact ⟨_, decodeWord_loadi h, rfl, wordOfImm_fields h⟩
  · exact ⟨_, decodeWord_jmp h, rfl, wordOfAddr_fields h⟩
  · exact ⟨_, decodeWord_beq h, rfl, wordOfImm_fields h⟩
  · exact encode_decode_of_extended h

/-! ### The mnemonic of a word -/

theorem decode_kind (w : Word) : (decode w).kind = classify w := rfl

theorem mnemonic_of_toInstr {d : Decoded} {i : Instr} (h : d.toInstr = some i) : i.mnemonic = d.mnemonic := by
  unfold Decoded.toInstr at h
  split at h <;> cases h <;> exact Eq.symm ‹_›

theorem mnemonic_ne_unknown (i : Instr) : i.mnemonic ≠ .unknown := by
  cases i <;> nofun

/-- Settles O5: the instruction that O2 gives has the record's mnemonic, and no instruction is UNKNOWN. -/
theorem noWordDecodesToUnknown : Obligations.NoWordDecodesToUnknown := by
  intro w
  obtain ⟨i, hi, -, -⟩ := encodeDecodeRoundTrip w
  have hm : i.mnemonic = (decode w).mnemonic := mnemonic_of_toInstr hi
  exact ⟨hm ▸ mnemonic_ne_unknown i, i, hi, hm⟩

/-! ### The opcode table scanned from the top -/

/-- Two rows overlap when their fixed bits do not contradict each other, so that one word can fit both. -/
def OpcodeRow.overlaps (r r' : OpcodeRow) : Bool := r.pattern &&& r'.mask == r'.pattern &&& r.mask

theorem OpcodeRow.fits_iff (r : OpcodeRow) (w : Word) : r.fits w = true ↔ w &&& r.mask = r.pattern := beq_iff_eq

theorem OpcodeRow.overlaps_of_fits {r r' : OpcodeRow} {w : Word} (h : r.fits w = true) (h' : r'.fits w = true) :
    r.overlaps r' = true := by
  rw [fits_iff] at h h'
  rw [overlaps, beq_iff_eq, ← h, ← h']
  ac_rfl

theorem OpcodeRow.extSelector_of_fits {r : OpcodeRow} {w : Word} (h : r.fits w = true)
    (hmask : extSelector r.mask = BitVec.allOnes 8) : extSelector w = extSelector r.pattern := by
  calc extSelector w = extSelector w &&& extSelector r.mask := by rw [hmask, BitVec.and_allOnes]
    _ = extSelector (w &&& r.mask) := BitVec.extractLsb'_and.symm
    _ = extSelector r.pattern := by rw [(fits_iff r w).mp h]

/-- No row but BNE's overlaps a row that stands before it. -/
theorem find?_overlaps_of_row {m : Mnemonic} {r : OpcodeRow} (hm : m.row = some r) (hbne : m ≠ .bne) :
    opcodeTable.find? r.overlaps = some r := by
  cases m <;> cases hm
  case bne => exact absurd rfl hbne
  all_goals rfl

theorem mnemonic_of_row {m : Mnemonic} {r : OpcodeRow} (hm : m.row = some r) : r.mnemonic = m := by
  cases m <;> cases hm <;> rfl

theorem firstFittingRow_of_split {m : Mnemonic} {r : OpcodeRow} {w : Word} {before after : List OpcodeRow}
    (hm : m.row = some r) (hfits : r.fits w = true) (htable : opcodeTable = before ++ r :: after)
    (hbefore : ∀ r' ∈ before, ¬r'.fits w = true) : firstFittingRow w = some m := by
  have hfind : opcodeTable.find? (·.fits w) = some r :=
    List.find?_eq_some_iff_append.mpr ⟨hfits, before, after, htable, fun r' hr' => by simp [hbefore r' hr']⟩
  rw [firstFittingRow, hfind, Option.map_some, mnemonic_of_row hm]

theorem firstFittingRow_of_not_bne {m : Mnemonic} {r : OpcodeRow} {w : Word} (hm : m.row = some r) (hbne : m ≠ .bne)
    (hfits : r.fits w = true) : firstFittingRow w = some m := by
  obtain ⟨-, before, after, htable, hbefore⟩ := List.find?_eq_some_iff_append.mp (find?_overlaps_of_row hm hbne)
  refine firstFittingRow_of_split hm hfits htable fun r' hr' hfits' => ?_
  have hdisjoint := hbefore r' hr'
  rw [OpcodeRow.overlaps_of_fits hfits hfits'] at hdisjoint
  exact absurd hdisjoint (by decide)

/-- The rows of the Extended family fix a selector that BNE's words do not have. -/
theorem extendedRows_selector : ∀ r ∈ [Mnemonic.call, .ret, .push, .pop].filterMap Mnemonic.row,
    extSelector r.mask = BitVec.allOnes 8 ∧ IsExtendedSelector (extSelector r.pattern) := by
  decide

theorem firstFittingRow_of_bne {r : OpcodeRow} {w : Word} (hm : Mnemonic.bne.row = some r) (hfits : r.fits w = true)
    (hhalt : w.toNat ≠ 0xFFFF) (hs : ¬IsExtendedSelector (extSelector w)) :
    firstFittingRow w = some .bne := by
  have hbefore : ∀ r' ∈ [Mnemonic.halt, .call, .ret, .push, .pop].filterMap Mnemonic.row, ¬r'.fits w = true := by
    intro r' hr' hfits'
    rcases List.mem_cons.mp hr' with rfl | hr'
    · have hw : w &&& BitVec.allOnes 16 = Config.haltWord := (OpcodeRow.fits_iff _ w).mp hfits'
      rw [BitVec.and_allOnes] at hw
      exact hhalt (congrArg BitVec.toNat hw)
    · obtain ⟨hmask, hsel⟩ := extendedRows_selector r' hr'
      exact hs (OpcodeRow.extSelector_of_fits hfits' hmask ▸ hsel)
  cases hm
  exact firstFittingRow_of_split rfl hfits rfl hbefore

theorem encode_fits_row (i : Instr) : ∃ r, i.mnemonic.row = some r ∧ r.fits (encode i) = true := by
  open Laws.EncodingFitsRow in
  cases i
  exacts [halt, call _, ret _, push _, pop _, bne _ _, nop _, add _ _ _, addi _ _, sub _ _ _, and _ _ _, or _ _ _,
    xor _ _ _, not _ _ _, shl _ _ _, shr _ _ _, load _ _ _, store _ _ _, loadi _ _, jmp _, beq _ _]

/-- Settles O6: the row of the decoded instruction fits its word, and no row above it does. -/
theorem firstFittingTableRowIsDecoded : Obligations.FirstFittingTableRowIsDecoded := by
  intro w
  obtain ⟨i, hi, hwf, rfl⟩ := encodeDecodeRoundTrip w
  obtain ⟨r, hrow, hfits⟩ := encode_fits_row i
  rw [← mnemonic_of_toInstr hi]
  cases i with
  | bne rd imm8 =>
    obtain ⟨hhalt, hsel⟩ := (bneEncodable_iff_word rd imm8).mp hwf
    exact firstFittingRow_of_bne hrow hfits hhalt hsel
  | _ => exact firstFittingRow_of_not_bne hrow nofun hfits

/-! ### The tests of R63 and the bound of R70 as the statements say them -/

theorem classify_format_extended_iff (w : Word) :
    (classify w).1 = .extended ↔ 0xFF00 ≤ w.toNat ∧ w.toNat ≤ 0xFF3F := by
  by_cases hhalt : w.toNat = 0xFFFF
  · rw [classify_eq, if_neg (by omega), if_pos hhalt]
    simp [hhalt]
  by_cases hop : opcodeField w = 15
  · have htop : w.toNat / 4096 = 15 := opcodeField_eq_iff.mp hop
    rw [classify_of_extended hop hhalt rfl, extendedRow_format, IsExtendedSelector, extSelector_toNat]
    omega
  · have htop : w.toNat / 4096 ≠ 15 := fun e => hop (opcodeField_eq_iff.mpr e)
    rw [classify_of_table rfl hop]
    exact iff_of_false (tableRow_format _) (by omega)

section Kind

variable {w : Word}

theorem decode_kind_of_table (op : BitVec 4) (hop : op ≠ 15) (h : w.toNat / 4096 = op.toNat) :
    (decode w).kind = tableRow op :=
  classify_of_table (opcodeField_eq_iff.mpr h) hop

theorem decode_kind_of_extended (htop : w.toNat / 4096 = 15) (hw : w.toNat ≠ 0xFFFF) (sel : BitVec 8)
    (h : w.toNat / 16 % 256 = sel.toNat) : (decode w).kind = extendedRow sel :=
  classify_of_extended (opcodeField_eq_iff.mpr htop) hw (extSelector_eq_iff.mpr h)

end Kind

/-- Settles O3, clause by clause from the tests of R63. -/
theorem decoderFollowsPrecedence : Obligations.DecoderFollowsPrecedence := by
  refine ⟨fun w => ⟨fun h => ?nop, fun h => ?halt, fun htop hw => ?family, ?_⟩, rfl⟩
  case nop => rw [decode_kind, classify_eq, if_pos h]
  case halt => rw [decode_kind, classify_eq, if_neg (by omega), if_pos h]
  case family =>
    have hrow := decode_kind_of_extended htop hw
    refine ⟨hrow 0xF0, hrow 0xF1, hrow 0xF2, hrow 0xF3, fun hsel => ?_⟩
    rw [← extSelector_toNat] at hsel
    exact (hrow _ (extSelector_toNat w).symm).trans (extendedRow_of_not_extended hsel)
  exact ⟨decode_kind_of_table 0x0 (by decide), decode_kind_of_table 0x1 (by decide),
    decode_kind_of_table 0x2 (by decide), decode_kind_of_table 0x3 (by decide),
    decode_kind_of_table 0x4 (by decide), decode_kind_of_table 0x5 (by decide),
    decode_kind_of_table 0x6 (by decide), decode_kind_of_table 0x7 (by decide),
    decode_kind_of_table 0x8 (by decide), decode_kind_of_table 0x9 (by decide),
    decode_kind_of_table 0xA (by decide), decode_kind_of_table 0xB (by decide),
    decode_kind_of_table 0xC (by decide), decode_kind_of_table 0xD (by decide),
    decode_kind_of_table 0xE (by decide), classify_format_extended_iff w⟩

theorem wellFormed_of_decodeWord {w : Word} {i : Instr} (h : decodeWord w = some i) : i.WellFormed = true := by
  obtain ⟨j, hj, hwf, -⟩ := encodeDecodeRoundTrip w
  obtain rfl : j = i := Option.some.inj (hj.symm.trans h)
  exact hwf

/-- The well-formed instructions are exactly those that have a word. -/
theorem exists_decodeWord_iff (i : Instr) : (∃ w, decodeWord w = some i) ↔ i.WellFormed = true :=
  ⟨fun ⟨_, h⟩ => wellFormed_of_decodeWord h, fun h => ⟨encode i, decodeEncodeRoundTrip i h⟩⟩

theorem wellFormed_of_not_bne {i : Instr} (h : i.mnemonic ≠ .bne) : i.WellFormed = true := by
  cases i with
  | bne rd imm8 => exact absurd rfl h
  | _ => rfl

/-- The words that the Extended family takes from BNE on register 15. -/
theorem classify_bneWord_of_lt {imm8 : BitVec 8} (h : imm8.toNat < 0x40) :
    (classify (wordOfImm 15 15 imm8)).2 ∈ [Mnemonic.call, .ret, .push, .pop] := by
  have hsel := extSelector_wordOfImm_toNat 15 15 imm8
  have hhalt : (wordOfImm 15 15 imm8).toNat ≠ 0xFFFF := by
    rw [wordOfImm_toNat]
    omega
  rw [classify_of_extended (opcodeField_wordOfImm 15 15 imm8) hhalt rfl]
  exact extendedRow_mnemonic_mem (by omega)

/-- Settles O7: R70's bound is what having a word means, and the words below 0x40 go to the Extended family. -/
theorem bneOnRegisterFifteenLosesEncodings : Obligations.BneOnRegisterFifteenLosesEncodings :=
  ⟨fun rd imm8 => (exists_decodeWord_iff _).trans (bneEncodable_iff rd imm8), fun _ => classify_bneWord_of_lt,
    Machine.decodeWord_haltWord, fun i h => (exists_decodeWord_iff i).mpr (wellFormed_of_not_bne h)⟩

/-! ### Fields, fixed words and bytes -/

/-- Settles O4: the slice of each field as arithmetic on the number of the word. -/
theorem decodedFieldsAreSlices : Obligations.DecodedFieldsAreSlices := fun w =>
  ⟨opcodeField_toNat w, rdField_val w, rsField_val w, rtField_val w, imm8Field_toNat w, offsetField_toNat w,
    addr12Field_toNat w⟩

/-- Settles O8: thirteen fixed words, by evaluation of the decoder. -/
theorem writtenOutWordsDecode : Obligations.WrittenOutWordsDecode := by
  unfold Obligations.WrittenOutWordsDecode
  decide

/-- Settles O9: the bytes are those of one word, and every word decodes. -/
theorem instructionIsTwoBytesLowFirst : Obligations.InstructionIsTwoBytesLowFirst := by
  refine ⟨fun lo hi rest => ?_, fun _ => rfl, rfl⟩
  have hword : BitVec.ofNat 16 (lo.toNat + 256 * hi.toNat) = wordOfBytes lo hi := by
    rw [← wordOfBytes_toNat, BitVec.ofNat_toNat, BitVec.setWidth_eq]
  obtain ⟨i, hdec, -, -⟩ := encodeDecodeRoundTrip (wordOfBytes lo hi)
  exact ⟨i, by rw [decodeBytes, hdec], hword ▸ hdec⟩

end Sys2Proof
end

section
/-! PROOFS. The engine: when a step completes and when it fails, what halts it, and what a halted machine and `run` do
(R90 to R94, R97, R98, R181). -/

namespace Sys2Proof.Machine

/-! ### A step of a halted and of a running machine -/

theorem step_of_halted {s : State} (h : s.halted = true) : step s = .fault .halted := if_pos h

/-- Every word decodes (R66), so a running machine completes its step. -/
theorem step_of_running {s : State} (h : s.halted = false) :
    ∃ i, decodeWord s.fetchWord = some i ∧ step s = .next ((effectOf i s.advancePc).apply s.advancePc).addCycle := by
  obtain ⟨i, hi, -, -⟩ := encodeDecodeRoundTrip s.fetchWord
  exact ⟨i, hi, step_of_effect h hi⟩

theorem stepOp_of_halted {s : State} (h : s.halted = true) : stepOp s = (s, .failed .halted) := by
  rw [stepOp, step_of_halted h]

/-- Settles O12: `step` tests `halted` first, and the operation hands the failure on. -/
theorem haltedStepFailsAndChangesNothing : Obligations.HaltedStepFailsAndChangesNothing := fun _ _ h =>
  ⟨step_of_halted h, stepOp_of_halted h⟩

/-- Settles O11: the instruction and its effect, as `step_of_running` gives them. -/
theorem runningStepSucceeds : Obligations.RunningStepSucceeds := by
  intro s h
  obtain ⟨i, hi, hstep⟩ := step_of_running h
  exact ⟨i, _, hi, exec_eq_effect i s.advancePc, hstep⟩

/-- Settles O13: a halted machine's step is the one failure, a running machine's step completes. -/
theorem stepFailsOnlyWhenHalted : Obligations.StepFailsOnlyWhenHalted := by
  intro s
  cases h : s.halted with
  | true => simp [step_of_halted h, eq_comm]
  | false =>
    obtain ⟨i, -, hstep⟩ := step_of_running h
    simp [hstep]

theorem decodeWord_of_decodeBytes {lo hi : Byte} {rest rest' : List Byte} {i : Instr}
    (h : decodeBytes (lo :: hi :: rest) = .ok (i, rest')) : decodeWord (wordOfBytes lo hi) = some i := by
  rw [decodeBytes] at h
  split at h
  · next hj =>
    cases h
    exact hj
  · cases h

/-- Off the last address the word fetched is made of the two bytes at `pc` (R44, R60). -/
theorem fetchWord_of_ne_last {s : State} (h : s.pc ≠ 0xFFFF) :
    s.fetchWord = wordOfBytes (s.mem.read s.pc.toNat) (s.mem.read (s.pc.toNat + 1)) := by
  rw [State.fetchWord, s.mem.fetch_of_ne_last h, s.mem.readWord_of_ne_last h]

/-- Settles O10: the word fetched is the one the two bytes make. -/
theorem stepRunsTheInstructionAtPc : Obligations.StepRunsTheInstructionAtPc := fun _ _ hrun hpc hbytes =>
  step_of_decode hrun (fetchWord_of_ne_last hpc ▸ decodeWord_of_decodeBytes hbytes)

/-! ### What halts a machine -/

/-- HALT is the instruction of the HALT word and of no other (R63, R69). -/
theorem mnemonic_halt_iff_of_decodeWord {w : Word} {i : Instr} (h : decodeWord w = some i) :
    i.mnemonic = .halt ↔ w = Config.haltWord := by
  constructor
  · intro hm
    obtain ⟨j, hj, -, rfl⟩ := encodeDecodeRoundTrip w
    obtain rfl : j = i := Option.some.inj (hj.symm.trans h)
    cases j <;> cases hm
    rfl
  · rintro rfl
    obtain rfl : Instr.halt = i := Option.some.inj (decodeWord_haltWord.symm.trans h)
    rfl

theorem Effect.apply_halted_eq (u : Effect) (s : State) : (u.apply s).halted = (u.halts || s.halted) := by
  cases hu : u.halts with
  | true =>
    cases u <;> cases hu
    rfl
  | false => rw [u.apply_halted s hu, Bool.false_or]

/-- Settles O15: the machine ran, and the only effect that halts is HALT's. -/
theorem haltedOnlyByTheHaltWord : Obligations.HaltedOnlyByTheHaltWord := by
  intro s t hstep
  obtain ⟨hrun, i, hi, rfl⟩ := step_next_effect hstep
  have hadv : s.advancePc.halted = false := hrun
  rw [State.addCycle_halted, Effect.apply_halted_eq, hadv, Bool.or_false, halts_effectOf, beq_iff_eq]
  exact mnemonic_halt_iff_of_decodeWord hi

/-! ### A halted machine stays halted -/

@[simp] theorem State.raise_halted (s : State) : s.raisePrivilegeOnException.halted = s.halted := by
  rw [State.raise_spec]

@[simp] theorem State.enterKernelMode_halted (s : State) : s.enterKernelMode.halted = s.halted := by
  rw [State.enterKernelMode_spec]; split <;> rfl

@[simp] theorem State.dropPrivilege_halted (s : State) (target : Ring) :
    (s.dropPrivilege target).halted = s.halted := by simp [State.dropPrivilege_spec]

theorem run_of_halted (n : Nat) {s : State} (h : s.halted = true) : run n s = (s, .consumed 0) := by
  cases n with
  | zero => rfl
  | succ n => exact if_pos h

theorem perform_halted (image : Memory) {op : HostOp} {s : State} (h : s.halted = true) (hop : op ≠ .reset) :
    (perform image op s).1.halted = true := by
  cases op
  case reset => exact absurd rfl hop
  case writeGp i v => exact (s.writeGp_halted i v).trans h
  case enterKernelMode => exact s.enterKernelMode_halted.trans h
  case dropPrivilege target => exact (s.dropPrivilege_halted target).trans h
  case raisePrivilegeOnException => exact s.raise_halted.trans h
  case step => exact (congrArg (·.1.halted) (stepOp_of_halted h)).trans h
  case run n => exact (congrArg (·.1.halted) (run_of_halted n h)).trans h
  case decode | readGp | isKernelMode | isSupervisorMode | isUserMode | loadProgram | lookup => exact h

/-- Settles O47: no operation but `reset` writes `halted` on a halted machine. -/
theorem onlyResetLeavesHalted : Obligations.OnlyResetLeavesHalted := fun image _ _ h hop =>
  have hstill := perform_halted image h hop
  ⟨hstill, step_of_halted hstill⟩

/-! ### `run` -/

theorem run_succ_of_next (n : Nat) {s t : State} (hrun : s.halted = false) (hstep : step s = .next t) :
    run (n + 1) s = ((run n t).1, (run n t).2.oneMore) := by
  rw [run, hrun, hstep]
  rfl

theorem stepTimes_succ_of_next (k : Nat) {s t : State} (hstep : step s = .next t) :
    stepTimes (k + 1) s = stepTimes k t := by
  rw [stepTimes, hstep]

/-- Settles O49, by induction on the budget: a halted machine takes no step, a running one takes its step and then runs
with the rest of the budget. -/
theorem runStopsAtHaltOrBudget : Obligations.RunStopsAtHaltOrBudget := by
  intro n
  induction n with
  | zero => exact fun s => ⟨0, s, rfl, le_rfl, nofun, rfl, rfl⟩
  | succ n ih =>
    intro s
    cases h : s.halted with
    | true => exact ⟨0, s, run_of_halted _ h, Nat.zero_le _, fun _ => h, rfl, rfl⟩
    | false =>
      obtain ⟨i, -, hstep⟩ := step_of_running h
      obtain ⟨k, t, hrun, hle, hhalt, hcycles, htimes⟩ := ih ((effectOf i s.advancePc).apply s.advancePc).addCycle
      refine ⟨k + 1, t, ?_, Nat.succ_le_succ hle, fun hlt => hhalt (Nat.lt_of_succ_lt_succ hlt), ?_, ?_⟩
      · rw [run_succ_of_next n h hstep, hrun, Reply.oneMore]
      · rw [hcycles, step_cycles hstep, Nat.add_right_comm, Nat.add_assoc]
      · rw [stepTimes_succ_of_next k hstep, htimes]

/-! ### `lookup` -/

/-- What a digit is worth: `0` to `9` are the characters 48 to 57, `A` to `F` the characters 65 to 70. -/
theorem hexDigit_eq_some_iff {c : Char} {n : Nat} :
    hexDigit c = some n ↔ (c.toNat = 48 + n ∧ n < 10) ∨ (c.toNat = 55 + n ∧ 10 ≤ n ∧ n < 16) := by
  obtain ⟨h0, h9, hA, hF⟩ : '0'.toNat = 48 ∧ '9'.toNat = 57 ∧ 'A'.toNat = 65 ∧ 'F'.toNat = 70 := by decide
  rw [hexDigit, h0, h9, hA, hF]
  split
  · rw [Option.some.injEq]
    omega
  · split
    · rw [Option.some.injEq]
      omega
    · exact iff_of_false nofun (by omega)

theorem hexDigit_lt {c : Char} {n : Nat} (h : hexDigit c = some n) : n < Config.nreg := by
  have hn : Config.nreg = 16 := rfl
  have := hexDigit_eq_some_iff.mp h
  omega

theorem hexDigit_inj {c d : Char} {n : Nat} (hc : hexDigit c = some n) (hd : hexDigit d = some n) : c = d := by
  have := hexDigit_eq_some_iff.mp hc
  have := hexDigit_eq_some_iff.mp hd
  exact Char.toNat_inj.mp (by omega)

/-- The digit of a register as R100 lists them. -/
theorem hexDigit_getD (r : Reg) : hexDigit ("0123456789ABCDEF".toList.getD r.val '0') = some r.val := by
  decide +revert

theorem exists_reg_of_hexDigit {c : Char} {n : Nat} (h : hexDigit c = some n) :
    ∃ r : Reg, c = "0123456789ABCDEF".toList.getD r.val '0' :=
  ⟨⟨n, hexDigit_lt h⟩, hexDigit_inj h (hexDigit_getD ⟨n, hexDigit_lt h⟩)⟩

theorem State.lookupUpper_reg (s : State) (r : Reg) :
    s.lookupUpper ['R', "0123456789ABCDEF".toList.getD r.val '0'] = some (s.reg r) :=
  congrArg (Option.map s.readGp) (hexDigit_getD r)

theorem State.lookupUpper_eq_none (s : State) {cs : List Char}
    (hspecial : cs ∉ [['P', 'C'], ['S', 'P'], ['L', 'R'], ['S', 'R']])
    (hreg : ∀ r : Reg, cs ≠ ['R', "0123456789ABCDEF".toList.getD r.val '0']) : s.lookupUpper cs = none := by
  unfold State.lookupUpper
  split
  iterate 4 exact absurd (by decide) hspecial
  · next d =>
    cases hd : hexDigit d with
    | none => rfl
    | some n =>
      obtain ⟨r, rfl⟩ := exists_reg_of_hexDigit hd
      exact absurd rfl (hreg r)
  · rfl

/-- Settles O50: the equations of `lookupUpper` on the capitals of the name. -/
theorem lookupByName : Obligations.LookupByName := by
  intro image s name
  exact ⟨rfl, congrArg s.lookupUpper, congrArg s.lookupUpper, congrArg s.lookupUpper, congrArg s.lookupUpper,
    fun r h => (congrArg s.lookupUpper h).trans (s.lookupUpper_reg r), s.lookupUpper_eq_none⟩

end Sys2Proof.Machine
end

section
/-! PROOFS. ADD, ADDI and SUB: the sum or the difference as a number, then all that the end of the flag class does
(R95, R96, R110 to R113). -/

namespace Sys2Proof.Machine

/-- The word of three registers, its fields at the places R61 gives them. -/
theorem wordOfNibbles_bitsOfReg_toNat (op : BitVec 4) (rd rs rt : Reg) :
    (wordOfNibbles op rd rs (bitsOfReg rt)).toNat = op.toNat * 0x1000 + rd.val * 0x100 + rs.val * 0x10 + rt.val := by
  rw [wordOfNibbles_toNat, bitsOfReg_toNat]

theorem wideSum_zeroExtendImm (a : Word) (imm8 : BitVec 8) :
    wideSum a (zeroExtendImm imm8) = a.toNat + imm8.toNat := by
  rw [wideSum, zeroExtendImm_toNat]

/-- The difference modulo 2^16 is the minuend raised by 2^16, less the subtrahend. -/
theorem sub_eq_ofNat (a b : Word) : a - b = BitVec.ofNat 16 (a.toNat + 0x10000 - b.toNat) := by
  apply BitVec.eq_of_toNat_eq
  rw [BitVec.toNat_sub, BitVec.toNat_ofNat]
  omega

/-- Settles O28: the end of class ZNC for the widened sum of the two registers. -/
theorem addResultFlagsFrame : Obligations.AddResultFlagsFrame := by
  intro rd rs rt s
  obtain ⟨hreg, hflags, hframe⟩ := finishZNC_spec s rd (wideSum (s.reg rs) (s.reg rt))
  exact ⟨_, rfl, hreg, hflags, hframe, wordOfNibbles_bitsOfReg_toNat 0x1 rd rs rt⟩

/-- Settles O29: the end of class ZNC for the widened sum of the register and the zero-extended immediate. -/
theorem addiResultFlagsFrame : Obligations.AddiResultFlagsFrame := by
  intro rd imm8 s
  rw [← wideSum_zeroExtendImm]
  obtain ⟨hreg, hflags, hframe⟩ := finishZNC_spec s rd (wideSum (s.reg rd) (zeroExtendImm imm8))
  exact ⟨_, rfl, hreg, hflags, hframe, wordOfImm_toNat 0x2 rd imm8⟩

/-- Settles O30: the end of class ZN for the difference, which leaves C and V. -/
theorem subResultFlagsFrame : Obligations.SubResultFlagsFrame := by
  intro rd rs rt s
  rw [← sub_eq_ofNat]
  obtain ⟨hreg, hflags, hframe⟩ := finishZN_spec s rd (s.reg rs - s.reg rt)
  exact ⟨_, rfl, hreg, hflags, hframe, wordOfNibbles_bitsOfReg_toNat 0x3 rd rs rt⟩

end Sys2Proof.Machine
end

section
/-! PROOFS. AND, OR, XOR, NOT, SHL and SHR: the complement and the shifts as numbers, then all that the end of flag class
ZN does (R95, R96, R120 to R125). -/

namespace Sys2Proof.Machine

/-- The complement is what is missing to 0xFFFF. -/
theorem not_eq_ofNat (a : Word) : ~~~a = BitVec.ofNat 16 (0xFFFF - a.toNat) := by
  apply BitVec.eq_of_toNat_eq
  rw [BitVec.toNat_not, BitVec.toNat_ofNat]
  omega

/-- Shifting left multiplies by the power of two; the bits shifted out are what 2^16 takes off. -/
theorem shiftLeft_shiftAmount (a v : Word) :
    a <<< shiftAmount v = BitVec.ofNat 16 (a.toNat * 2 ^ (v.toNat % 16)) := by
  apply BitVec.eq_of_toNat_eq
  rw [BitVec.toNat_shiftLeft, BitVec.toNat_ofNat, Nat.shiftLeft_eq, shiftAmount_eq]

/-- Shifting right divides by the power of two, the bits shifted out being the remainder. -/
theorem ushiftRight_shiftAmount (a v : Word) :
    a >>> shiftAmount v = BitVec.ofNat 16 (a.toNat / 2 ^ (v.toNat % 16)) := by
  rw [← Nat.shiftRight_eq_div_pow, ← shiftAmount_eq, ← BitVec.toNat_ushiftRight, BitVec.ofNat_toNat, BitVec.setWidth_eq]

/-- Every instruction that ends in class ZN with result `r`: its next state, with all that it writes and keeps. -/
theorem exec_finishZN {i : Instr} {s : State} {rd : Reg} {r : Word} (h : exec i s = .next (s.finishZN rd r)) :
    ∃ t, exec i s = .next t ∧ WritesReg rd r s t ∧ WritesZN r s t ∧ SameElsewhere s t :=
  ⟨_, h, finishZN_spec s rd r⟩

/-- Settles O31: the end of class ZN for each bitwise result. -/
theorem bitwiseResultFlagsFrame : Obligations.BitwiseResultFlagsFrame := fun rd rs rt _ =>
  ⟨exec_finishZN rfl, exec_finishZN rfl, exec_finishZN rfl, wordOfNibbles_bitsOfReg_toNat 0x4 rd rs rt,
    wordOfNibbles_bitsOfReg_toNat 0x5 rd rs rt, wordOfNibbles_bitsOfReg_toNat 0x6 rd rs rt⟩

/-- Settles O32: the end of class ZN for the complement, the ignored bits being in the word only. -/
theorem notResultFlagsFrame : Obligations.NotResultFlagsFrame := by
  intro rd rs ign s
  rw [← not_eq_ofNat]
  obtain ⟨hreg, hflags, hframe⟩ := finishZN_spec s rd (~~~s.reg rs)
  exact ⟨_, rfl, hreg, hflags, hframe, wordOfNibbles_toNat 0x7 rd rs ign⟩

/-- Settles O33: the end of class ZN for each shifted value. -/
theorem shiftResultFlagsFrame : Obligations.ShiftResultFlagsFrame := by
  intro rd rs rt s
  rw [← shiftLeft_shiftAmount, ← ushiftRight_shiftAmount]
  exact ⟨exec_finishZN rfl, exec_finishZN rfl, wordOfNibbles_bitsOfReg_toNat 0x8 rd rs rt,
    wordOfNibbles_bitsOfReg_toNat 0x9 rd rs rt⟩

end Sys2Proof.Machine
end

section
/-! PROOFS. LOAD, STORE and LOADI: the address and the immediate as numbers, then a register write that leaves the flags
or a 16-bit store that leaves everything but two bytes (R130 to R133). -/

namespace Sys2Proof.Machine

/-- Copying bit 7 into the high byte adds 0xFF00 to an immediate of 0x80 or more. -/
theorem signExtendImm_eq_ofNat (imm8 : BitVec 8) :
    signExtendImm imm8 = BitVec.ofNat 16 (if imm8.toNat < 0x80 then imm8.toNat else 0xFF00 + imm8.toNat) := by
  apply BitVec.eq_of_toNat_eq
  have hsext := signExtendImm_toInt imm8
  rw [BitVec.toInt_eq_toNat_cond, BitVec.toInt_eq_toNat_cond] at hsext
  rw [BitVec.toNat_ofNat]
  split <;> omega

theorem State.setReg_sameElsewhere (s : State) (rd : Reg) (v : Word) : SameElsewhere s (s.setReg rd v) :=
  ⟨(Effect.writeReg rd v).apply_sameSpecial s, s.setReg_pc rd v, s.setReg_halted rd v,
    fun a => congrArg (·.read a) (s.setReg_mem rd v)⟩

/-- Every instruction that ends in a register write and no flag: its next state, with all that it writes and keeps. -/
theorem exec_setReg {i : Instr} {s : State} {rd : Reg} {v : Word} (h : exec i s = .next (s.setReg rd v)) :
    ∃ t, exec i s = .next t ∧ WritesReg rd v s t ∧ t.sr = s.sr ∧ SameElsewhere s t :=
  ⟨_, h, s.setReg_writesReg rd v, s.setReg_sr rd v, s.setReg_sameElsewhere rd v⟩

/-- Settles O34: a write of the word read, at the address as a number. -/
theorem loadResultFrame : Obligations.LoadResultFrame := fun rd rs offset s =>
  ⟨effectiveAddress_toNat (s.reg rs) offset, exec_setReg rfl, wordOfNibbles_toNat 0xA rd rs offset⟩

/-- Settles O35: the effect stores a word, and `memWriteIsLittleEndianWithinBounds` says what that
does to memory. -/
theorem storeResultFrame : Obligations.StoreResultFrame := by
  rintro rd rs offset s ea rfl
  obtain ⟨hlast, hbytes⟩ := memWriteIsLittleEndianWithinBounds s.mem (effectiveAddress (s.reg rs) offset) (s.reg rd)
  have hspecial := (effectOf (.store rd rs offset) s).apply_sameSpecial s
  exact ⟨effectiveAddress_toNat (s.reg rs) offset,
    ⟨_, rfl, fun h a => congrArg (·.read a) (hlast h), hbytes, fun _ => rfl, rfl, rfl, rfl, hspecial⟩,
    wordOfNibbles_toNat 0xB rd rs offset⟩

/-- Settles O36: a write of the sign-extended immediate. -/
theorem loadiResultFrame : Obligations.LoadiResultFrame := by
  intro rd imm8 s
  rw [← signExtendImm_eq_ofNat]
  obtain ⟨t, hexec, hreg, hsr, hframe⟩ := exec_setReg (i := .loadi rd imm8) (s := s) rfl
  exact ⟨t, hexec, hreg, hsr, hframe, wordOfImm_toNat 0xC rd imm8⟩

end Sys2Proof.Machine
end

section
/-! PROOFS. JMP, BEQ and BNE: the targets as numbers, then a `pc` set to the target and nothing else changed (R140 to
R143). -/

namespace Sys2Proof

/-- R70's check is exactly what reading back from the encoded word takes. -/
theorem decodeWord_encode_iff (i : Instr) : decodeWord (encode i) = some i ↔ i.WellFormed = true :=
  ⟨wellFormed_of_decodeWord, decodeEncodeRoundTrip i⟩

namespace Machine

theorem jumpTarget_eq_ofNat (addr12 : BitVec 12) : jumpTarget addr12 = BitVec.ofNat 16 addr12.toNat := by
  rw [← jumpTarget_toNat, BitVec.ofNat_toNat, BitVec.setWidth_eq]

/-- R143 on numbers: the displacement is a signed count of words, and the sum wraps. -/
theorem branchTarget_toNat (pc : Word) (imm8 : BitVec 8) :
    ((branchTarget pc imm8).toNat : Int) = ((pc.toNat : Int) + 2 * imm8.toInt) % 0x10000 := by
  have htwo : (2 : Word).toNat = 2 := rfl
  rw [branchTarget, branchDisplacement, BitVec.toNat_add, BitVec.toNat_mul, htwo, ← signExtendImm_toInt,
    BitVec.toInt_eq_toNat_cond]
  omega

theorem exec_beq (rd : Reg) (imm8 : BitVec 8) (s : State) :
    exec (.beq rd imm8) s = .next (s.setPc (if s.reg rd = 0 then branchTarget s.pc imm8 else s.pc)) := by
  simp [exec, execBeq, State.branchIf_spec]

theorem exec_bne (rd : Reg) (imm8 : BitVec 8) (s : State) :
    exec (.bne rd imm8) s = .next (s.setPc (if s.reg rd = 0 then s.pc else branchTarget s.pc imm8)) := by
  simp [exec, execBne, State.branchIf_spec]

/-- Settles O37: a jump to the twelve bits read as a word. -/
theorem jmpTargetFrame : Obligations.JmpTargetFrame := by
  intro addr12 s
  rw [← jumpTarget_eq_ofNat]
  exact ⟨rfl, wordOfAddr_toNat 0xD addr12⟩

/-- Settles O38: both branches set `pc`, to the same target and on opposite conditions; of their words only those of BNE
can read back as another instruction. -/
theorem branchTargetFrame : Obligations.BranchTargetFrame := fun rd imm8 s =>
  ⟨branchTarget s.pc imm8, branchTarget_toNat s.pc imm8, exec_beq rd imm8 s, exec_bne rd imm8 s,
    wordOfImm_toNat 0xE rd imm8, wordOfImm_toNat 0xF rd imm8, decodeEncodeRoundTrip (.beq rd imm8) rfl,
    (decodeWord_encode_iff (.bne rd imm8)).trans (bneEncodable_iff rd imm8)⟩

end Machine

end Sys2Proof
end

section
/-! PROOFS. NOP, HALT and the Extended family: their words as numbers, and a step of each as a state written out (R150 to
R155). -/

namespace Sys2Proof.Machine

/-- The step of an instruction without effect changes `pc` and `cycles` alone. -/
theorem step_of_keep {s : State} {i : Instr} (hrun : s.halted = false) (hi : decodeWord s.fetchWord = some i)
    (hkeep : effectOf i s.advancePc = .keep) : step s = .next { s with pc := s.pc + 2, cycles := s.cycles + 1 } := by
  rw [step_of_effect hrun hi, hkeep]
  rfl

/-- The words 0xFF00 to 0xFF3F are CALL's, RET's, PUSH's and POP's, one selector each, and none of the four has an effect
(R63, R152 to R155). -/
theorem decodeWord_keep_of_extended_range {w : Word} (hlo : 0xFF00 ≤ w.toNat) (hhi : w.toNat ≤ 0xFF3F) :
    ∃ i, decodeWord w = some i ∧ ∀ s, effectOf i s = .keep := by
  have htop : w.toNat / 4096 = 15 := by omega
  have hop : opcodeField w = 15 := opcodeField_eq_iff.mpr htop
  have hhalt : w.toNat ≠ 0xFFFF := by omega
  have hext : IsExtendedSelector (extSelector w) := by
    rw [IsExtendedSelector, extSelector_toNat]
    omega
  rcases selector_cases (extSelector w) with hs | hs | hs | hs | hs
  · exact ⟨_, decodeWord_call hop hhalt hs, fun _ => rfl⟩
  · exact ⟨_, decodeWord_ret hop hhalt hs, fun _ => rfl⟩
  · exact ⟨_, decodeWord_push hop hhalt hs, fun _ => rfl⟩
  · exact ⟨_, decodeWord_pop hop hhalt hs, fun _ => rfl⟩
  · exact absurd hext hs

/-- Settles O39: NOP has no effect, and its opcode adds nothing to the twelve ignored bits. -/
theorem nopChangesNothing : Obligations.NopChangesNothing := by
  intro ign s
  have hword : (encode (.nop ign)).toNat = 0 * 4096 + ign.toNat := wordOfAddr_toNat 0x0 ign
  exact ⟨exec_eq_effect (.nop ign) s, by omega⟩

/-- Settles O40: the word fetched is HALT's wherever it came from, and the state its step leaves is halted. -/
theorem haltStopsTheEngine : Obligations.HaltStopsTheEngine := by
  refine ⟨exec_eq_effect .halt, rfl, fun s hrun hfetch => ⟨_, ?_, rfl, step_of_halted rfl⟩⟩
  have hi : decodeWord s.fetchWord = some .halt := (congrArg decodeWord hfetch).trans decodeWord_haltWord
  exact step_of_effect hrun hi

/-- Settles O41: no instruction of the family has an effect, and its words are twelve fixed bits and the ignored ones. -/
theorem extendedInstructionsAreNoOps : Obligations.ExtendedInstructionsAreNoOps := by
  refine ⟨fun ign s => ?each, fun s hrun hlo hhi => ?step⟩
  case each =>
    exact ⟨exec_eq_effect (.call ign) s, exec_eq_effect (.ret ign) s, exec_eq_effect (.push ign) s,
      exec_eq_effect (.pop ign) s, wordOfExtended_toNat 0xFF0 ign, wordOfExtended_toNat 0xFF1 ign,
      wordOfExtended_toNat 0xFF2 ign, wordOfExtended_toNat 0xFF3 ign⟩
  case step =>
    obtain ⟨i, hi, hkeep⟩ := decodeWord_keep_of_extended_range hlo hhi
    exact step_of_keep hrun hi (hkeep _)

end Sys2Proof.Machine
end

section
/-! PROOFS. Exceptions and privilege: an exception entry ring by ring, a second entry, the two other transitions and the
mode predicates (R163, R167, R171 to R174). -/

namespace Sys2Proof.Machine

namespace State

/-! ### The entry, ring by ring -/

section
variable (s : State)

@[simp] theorem raise_ring : s.raisePrivilegeOnException.ring = .kernel := by rw [raise_spec]
@[simp] theorem raise_sp : s.raisePrivilegeOnException.sp = s.ksp := by rw [raise_spec]
@[simp] theorem raise_ksp : s.raisePrivilegeOnException.ksp = s.ksp := by rw [raise_spec]

end

section
variable {s : State}

theorem raise_of_kernel (h : s.ring = .kernel) :
    s.raisePrivilegeOnException =
      { s with savedPc := s.pc, savedSr := s.sr, sp := s.ksp, pc := Config.excHandler } := by
  simp [raise_spec, h]

theorem raise_of_supervisor (h : s.ring = .supervisor) :
    s.raisePrivilegeOnException =
      { s with savedPc := s.pc, savedSr := s.sr, ssp := s.sp, ring := .kernel, sp := s.ksp, pc := Config.excHandler } := by
  simp [raise_spec, h]

theorem raise_of_user (h : s.ring = .user) :
    s.raisePrivilegeOnException =
      { s with savedPc := s.pc, savedSr := s.sr, usp := s.sp, ring := .kernel, sp := s.ksp, pc := Config.excHandler } := by
  simp [raise_spec, h]

/-- In the Kernel ring with its own bank live, an entry writes the save slots and `pc` alone (R163, conflict C6). -/
theorem raise_of_kernel_live (h : s.ring = .kernel) (hlive : s.sp = s.ksp) :
    s.raisePrivilegeOnException = { s with savedPc := s.pc, savedSr := s.sr, pc := Config.excHandler } := by
  rw [raise_of_kernel h, ← hlive]

end

/-! ### What `dropPrivilege` writes -/

/-- Writing a bank writes no other field. -/
theorem setBank_frame (s : State) (r : Ring) (v : Word) :
    s.setBank r v =
      { s with ksp := (s.setBank r v).ksp, ssp := (s.setBank r v).ssp, usp := (s.setBank r v).usp } := by
  cases r <;> rfl

theorem setBank_self (s : State) (r : Ring) : s.setBank r (s.bank r) = s := by
  cases r <;> rfl

@[simp] theorem dropPrivilege_ring (s : State) (target : Ring) : (s.dropPrivilege target).ring = target := rfl

@[simp] theorem dropPrivilege_sp (s : State) (target : Ring) :
    (s.dropPrivilege target).sp = if s.ring = target then s.sp else s.bank target := by
  rw [dropPrivilege_spec]
  rfl

theorem bank_dropPrivilege (s : State) (target q : Ring) :
    (s.dropPrivilege target).bank q = if s.ring = q then s.sp else s.bank q := by
  rw [dropPrivilege_spec, setRing_bank, setSp_bank, setBank_bank]

theorem dropPrivilege_frame (s : State) (target : Ring) :
    s.dropPrivilege target =
      { s with
        sp   := (s.dropPrivilege target).sp
        ksp  := (s.dropPrivilege target).ksp
        ssp  := (s.dropPrivilege target).ssp
        usp  := (s.dropPrivilege target).usp
        ring := (s.dropPrivilege target).ring } :=
  congrArg (fun b => (b.setSp (s.dropPrivilege target).sp).setRing target) (s.setBank_frame s.ring s.sp)

/-- Dropping to the current ring changes nothing where the live stack pointer is its bank. -/
theorem dropPrivilege_self {s : State} (hlive : s.sp = s.bank s.ring) : s.dropPrivilege s.ring = s := by
  have hbank : s.setBank s.ring s.sp = s := by rw [hlive, setBank_self]
  rw [dropPrivilege_spec, hbank, if_pos rfl]
  rfl

/-! ### The mode predicates -/

theorem isKernelMode_iff (s : State) : s.isKernelMode = true ↔ s.ring = .kernel := beq_iff_eq

theorem isSupervisorMode_iff (s : State) : s.isSupervisorMode = true ↔ s.ring = .supervisor := beq_iff_eq

theorem isUserMode_iff (s : State) : s.isUserMode = true ↔ s.ring = .user := beq_iff_eq

/-- The three predicates ask for three different rings, and there is no fourth (R24, R174). -/
theorem count_mode_predicates (s : State) :
    [s.isKernelMode, s.isSupervisorMode, s.isUserMode].count true = 1 := by
  unfold isKernelMode isSupervisorMode isUserMode
  cases s.ring <;> rfl

end State

/-- Settles O43: a step of the handler leaves the ring Kernel and its bank live, so the second entry writes the save slots
and `pc` alone. -/
theorem nestedEntryLosesTheFirstContext : Obligations.NestedEntryLosesTheFirstContext := by
  refine ⟨fun s t hstep => ?afterStep, fun s => ?atOnce⟩
  case afterStep =>
    have hsame := SamePrivileged.of_step hstep
    have hring : t.ring = .kernel := hsame.ring.trans s.raise_ring
    have hlive : t.sp = t.ksp := by rw [hsame.sp, hsame.ksp, s.raise_sp, s.raise_ksp]
    exact State.raise_of_kernel_live hring hlive
  case atOnce =>
    have hlive := s.raise_sp.trans s.raise_ksp.symm
    rw [State.raise_of_kernel_live s.raise_ring hlive, State.raise_spec]
    rfl

/-- Settles O42, ring by ring. -/
theorem exceptionEntrySavesAndGoesToHandler : Obligations.ExceptionEntrySavesAndGoesToHandler := fun _ _ =>
  ⟨rfl, State.raise_of_kernel, State.raise_of_supervisor, State.raise_of_user, State.raise_of_kernel_live⟩

/-- Settles O44: the two branches of the transition's formula. -/
theorem enterKernelModeActsFromUserOnly : Obligations.EnterKernelModeActsFromUserOnly := fun _ s =>
  ⟨rfl, fun h => s.enterKernelMode_spec.trans (if_pos h), fun h => s.enterKernelMode_spec.trans (if_neg h)⟩

/-- Settles O45: the banks after the transition, read at the ring left and at another, and the frame. -/
theorem dropPrivilegeBanksAndLoads : Obligations.DropPrivilegeBanksAndLoads := by
  intro image s target
  refine ⟨rfl, s.dropPrivilege_ring target, ?left, fun q hq => ?other, ?loaded, s.dropPrivilege_frame target, ?self⟩
  case left => rw [s.bank_dropPrivilege, if_pos rfl]
  case other => rw [s.bank_dropPrivilege, if_neg hq.symm]
  case loaded => simp only [s.dropPrivilege_sp, eq_comm]
  case self =>
    rintro rfl hlive
    exact State.dropPrivilege_self hlive

/-- Settles O46: each predicate compares the ring with one of its three values. -/
theorem exactlyOneModePredicateIsTrue : Obligations.ExactlyOneModePredicateIsTrue := fun _ s =>
  ⟨s.isKernelMode_iff, s.isSupervisorMode_iff, s.isUserMode_iff, s.count_mode_predicates, rfl, rfl, rfl⟩

end Sys2Proof.Machine
end
